-- ==== Sys2Proof/Word.lean ====
section
/-! DEFINITION. The vector widths and the data types of the function level (00_scope.md R7, R8; 10_state.md R13, R16). -/

namespace Sys2Proof

/-- A 32-bit half, `W_HALF` of R7. Signed and unsigned are views of it (R9), never different bits. -/
abbrev Word := BitVec 32

/-- The 64-bit value shifted, `W_FULL` of R7. -/
abbrev DWord := BitVec 64

/-- The byte a host may keep an operation word in (30_encoding.md R31). -/
abbrev Byte := BitVec 8

/-- An operation word `OPW`, `W_OPW` of R7 (30_encoding.md R31). -/
abbrev OpWord := BitVec 6

/-- A legal shift amount 0..31 as the port `N` carries it, `W_N` of R7 (10_state.md R16, R22). -/
abbrev ShiftAmount := BitVec 5

/-- The source's enumeration `{Left, Right}` (10_state.md R16). -/
inductive Direction where
  | left
  | right
  deriving DecidableEq, Repr

/-- The half-pair of 10_state.md R13: `hi` is the signed high half, `lo` the unsigned low half.
Every combination of two 32-bit vectors is a valid pair, and equality is equality of both fields. -/
structure HalfPair where
  hi : Word
  lo : Word
  deriving DecidableEq, Repr, Inhabited

/-- A call at the function level (00_scope.md R6, 60_exceptions.md R80): its amount is any integer,
so that the precondition violation can be expressed. -/
structure Call where
  direction : Direction
  amount : Int
  deriving DecidableEq, Repr

end Sys2Proof
end

