-- ==== Sys2Proof/Config.lean ====
section
/-! DEFINITION. The one open parameter of the spec and the free values of the model (60_exceptions.md R80, 92_eei_decisions.md D7). -/

namespace Sys2Proof

/-- The two settings of `OOR_POLICY` (60_exceptions.md R80, 92_eei_decisions.md D7). -/
inductive OorPolicy where
  /-- The operation raises `AmountOutOfRange(n)` and yields no pair. -/
  | fault
  /-- The operation yields a pair about which nothing is known. -/
  | anyValue
  deriving DecidableEq, Repr, Inhabited

/-- The setting of this machine. The source permits both and fixes neither (90_conflicts.md C5), so nothing
constrains it. Log entry 5. -/
opaque Config.oorPolicy : OorPolicy

/-- The free draw of R80: draw number `i` is some pair, and nothing says which. Log entry 5. -/
opaque Config.freePair : Nat → HalfPair

/-- The start pair `p0` of a host that was given none when a word is loaded: some pair, and nothing says which
(70_reset_and_hazards.md R94 does not say "how it obtained `p0`"). Log entry 3. -/
opaque Config.startPair : HalfPair

end Sys2Proof
end

