-- ==== Sys2Proof/Syntax.lean ====
section
/-! DEFINITION. The instructions, one constructor per row of spec/opcode_table.json (30_encoding.md R34, R38). -/

namespace Sys2Proof

/-- The instruction type of 30_encoding.md R38, "exactly `(DIR: 1 bit, n: 0..31)`". The operand and the
destination are implicit: the ports. -/
inductive Instr where
  /-- `lshift n`, 41_shift_left.md R44. -/
  | lshift (n : ShiftAmount)
  /-- `rshift n`, 42_shift_right.md R52. -/
  | rshift (n : ShiftAmount)
  deriving DecidableEq, Repr

end Sys2Proof
end

