-- ==== Sys2Proof/WellFormed.lean ====
section
/-! DEFINITION. Well-formedness. An instruction has no ill-formed term (30_encoding.md R33, R35); the check that can
fail is the precondition on the amount of a function-level call (10_state.md R16, 60_exceptions.md R80). -/

namespace Sys2Proof

/-- The precondition `0 <= n <= 31` of 10_state.md R16, tested on the amount alone (60_exceptions.md R80). -/
def amountInRange (n : Int) : Bool := decide (0 ≤ n ∧ n ≤ 31)

/-- A function-level call is well formed when its amount is a ShiftAmount. -/
def Call.wellFormed (c : Call) : Bool := amountInRange c.amount

/-- Every value of the 5-bit field is a legal ShiftAmount and every instruction has a word (30_encoding.md R33, R35). -/
def Instr.wellFormed : Instr → Bool
  | .lshift n => amountInRange n.toNat
  | .rshift n => amountInRange n.toNat

end Sys2Proof
end

