-- ==== Sys2Proof/Decode.lean ====
section
/-! DEFINITION. The decoder, total on every operation word and on any bytes, and then the encoder
(30_encoding.md R31 to R35). -/

namespace Sys2Proof

/-! ## Fields of an operation word -/

/-- `DIR = OPW[5]` (R31). -/
def opDir (w : OpWord) : BitVec 1 := w.extractLsb' 5 1

/-- `N = OPW[4:0]` (R31, R33). -/
def opAmount (w : OpWord) : ShiftAmount := w.extractLsb' 0 5

/-- `DIR = 0` is Left, `DIR = 1` is Right (R32). -/
def directionOfBit (d : BitVec 1) : Direction := if d = 0#1 then .left else .right

/-- The coding of `DIR` (R32). -/
def bitOfDirection : Direction → BitVec 1
  | .left => 0#1
  | .right => 1#1

/-! ## Decoding -/

/-- The instruction of a direction and an amount (R32, R33). -/
def instrOf : Direction → ShiftAmount → Instr
  | .left, n => .lshift n
  | .right, n => .rshift n

/-- The decoder. All 64 words are legal, so it refuses none (R35). -/
def decode (w : OpWord) : Instr := instrOf (directionOfBit (opDir w)) (opAmount w)

/-- The word a host keeps in the low 6 bits of a byte; bits 7 and 6 are not part of it (R31). Log entry 7. -/
def wordOfByte (b : Byte) : OpWord := b.extractLsb' 0 6

/-- Why the byte decoder refuses. -/
inductive DecodeReject where
  /-- No byte is left, so there is no word to decode. -/
  | noWord
  deriving DecidableEq, Repr

/-- The decoder on bytes: one instruction and the rest of the list (R31: one instruction length). -/
def decodeBytes : List Byte → Except DecodeReject (Instr × List Byte)
  | [] => .error .noWord
  | b :: rest => .ok (decode (wordOfByte b), rest)

/-- Decodes a whole list of bytes, each the container of one word. -/
def decodeImage : List Byte → List Instr
  | [] => []
  | b :: rest => decode (wordOfByte b) :: decodeImage rest

/-! ## Encoding -/

/-- `{DIR, N}`, written as R34 writes it: `(DIR << 5) | n`. -/
def opWordOf (d : BitVec 1) (n : ShiftAmount) : OpWord := (d.setWidth 6 <<< 5) ||| n.setWidth 6

/-- The direction an instruction selects (R32). -/
def Instr.direction : Instr → Direction
  | .lshift _ => .left
  | .rshift _ => .right

/-- The amount of an instruction (R33). -/
def Instr.amount : Instr → ShiftAmount
  | .lshift n => n
  | .rshift n => n

/-- The encoder of R34. -/
def encode (i : Instr) : OpWord := opWordOf (bitOfDirection i.direction) i.amount

/-- The word in the low 6 bits of a byte, the bits above it zero. -/
def byteOfWord (w : OpWord) : Byte := w.setWidth 8

/-- The byte of one instruction. -/
def encodeByte (i : Instr) : Byte := byteOfWord (encode i)

/-- The bytes of a list of instructions, in order. -/
def encodeImage : List Instr → List Byte
  | [] => []
  | i :: rest => encodeByte i :: encodeImage rest

/-! ## The opcode table's numbering -/

/-- The byte that holds an instruction whose low `nbits` bits are those of `w`, every bit above them zero. -/
def tableByte (nbits w : Nat) : Byte := BitVec.ofNat 8 (w % 2 ^ nbits)

/-- What the decoder reads from an instruction whose bits are `w`, numbered as spec/opcode_table.json numbers them. -/
def decodeTableWord (nbits w : Nat) : Option Instr :=
  match decodeBytes [tableByte nbits w] with
  | .ok (i, _) => some i
  | .error _ => none

end Sys2Proof
end

