-- ==== Sys2Proof/Machine/Codec.lean ====
section
/-! DEFINITION. The half-width codec: wiring, not an instruction (40_codec.md R39 to R42), and the value of a pair
(10_state.md R14). -/

namespace Sys2Proof.Machine

/-- `decompose(x)`: `hi = x[63:32]`, `lo = x[31:0]` (40_codec.md R39). -/
def decompose (x : DWord) : HalfPair := ⟨x.extractLsb' 32 32, x.extractLsb' 0 32⟩

/-- `recompose(p) = {p.hi, p.lo}` (40_codec.md R40). -/
def recompose (p : HalfPair) : DWord := p.hi ++ p.lo

/-- `val(p) = signed(p.hi) * 2^32 + unsigned(p.lo)` (10_state.md R14). -/
def val (p : HalfPair) : Int := p.hi.toInt * 2 ^ 32 + p.lo.toNat

end Sys2Proof.Machine
end

