-- ==== Sys2Proof/Machine/State.lean ====
section
/-! DEFINITION. The state: the value on each input port of the block (10_state.md R22), the host's side of a run
(70_reset_and_hazards.md R94), and the model's own counter of free draws; the reasons a step can stop; reset. The output
ports hold nothing of their own: they are functions of the inputs (R24), `State.hiOut` and `State.loOut` of
Machine/PortLevel.lean. -/

namespace Sys2Proof.Machine

/-- Everything that has a value at a moment. The block itself holds no state between operations (10_state.md R17 to
R21). An input port is `none` while the host has not driven it: it then holds no value (10_state.md R24). -/
structure State where
  /-- Port `DIR`, in (R22). -/
  dir : Option (BitVec 1)
  /-- Port `N`, in (R22). -/
  n : Option ShiftAmount
  /-- Port `HI_IN`, in (R22). -/
  hiIn : Option Word
  /-- Port `LO_IN`, in (R22). -/
  loIn : Option Word
  /-- The host's list of operation words still to present, the next one first (70_reset_and_hazards.md R94). -/
  program : List OpWord
  /-- The host's carried pair `p` (70_reset_and_hazards.md R94); `none` while the host has been given no start pair. -/
  pair : Option HalfPair
  /-- The model's own: how many free draws were made (60_exceptions.md R80). Log entry 6. -/
  draws : Nat
  deriving DecidableEq, Repr

/-- The reasons the machine stops. -/
inductive Fault where
  /-- Raised by an operation that reads an input port nothing has driven (10_state.md R24, 70_reset_and_hazards.md R91).
  Safe: the model stops where the spec gives no value. -/
  | undrivenInput
  /-- Raised by a function-level call whose amount is outside 0..31, under `OOR_POLICY = fault`
  (60_exceptions.md R80); it carries the offending amount. No step at the ports raises it (R81).
  Safe: the spec names this fault. -/
  | amountOutOfRange (n : Int)
  deriving DecidableEq, Repr

/-- The reasons the machine has no meaning for an instruction. -/
inductive Refusal where
  /-- Raised only by an arm of `exec` whose instruction has no meaning yet; no arm is so now. Safe: the model stops. -/
  | notModelled (mnemonic : String)
  deriving DecidableEq, Repr

/-- The machine before the host has done anything: no input is driven, so no output has a value (10_state.md R24;
70_reset_and_hazards.md R90); the host holds no words and no pair (log entry 2); no draw was made (log entry 6). -/
def State.reset : State where
  dir := none
  n := none
  hiIn := none
  loIn := none
  program := []
  pair := none
  draws := 0

end Sys2Proof.Machine
end

