-- ==== Sys2Proof/Machine/Operands.lean ====
section
/-! DEFINITION. The one operand form and the one amount form, and the derived names of the input ports
(10_state.md R22, 20_memory.md R25, 30_encoding.md R31). -/

namespace Sys2Proof.Machine

/-- The operand HalfPair `(HI_IN, LO_IN)` of every operation (R31); none while one of them is undriven (R24). -/
def State.operand (s : State) : Option HalfPair :=
  match s.hiIn, s.loIn with
  | some hi, some lo => some ⟨hi, lo⟩
  | _, _ => none

/-- The operation word `OPW = {DIR, N}` on the ports (R22); none while one of them is undriven (R24). -/
def State.opWord (s : State) : Option OpWord :=
  match s.dir, s.n with
  | some d, some n => some (opWordOf d n)
  | _, _ => none

/-- `X_IN = {HI_IN, LO_IN}` (R22, R25). -/
def State.xIn (s : State) : Option DWord := s.operand.map recompose

/-- A host that drives the low 5 bits of a wider amount onto `N` has reduced it modulo 32 (60_exceptions.md R81,
70_reset_and_hazards.md R92). -/
def narrowAmount (a : Int) : ShiftAmount := BitVec.ofInt 5 a

end Sys2Proof.Machine
end

