-- ==== Sys2Proof/Machine/Ops.lean ====
section
/-! DEFINITION. The named operations: the 32-bit primitives (00_scope.md R9, R10), the updates of the state, performing
an operation at the ports (10_state.md R23), the host's half of a run (70_reset_and_hazards.md R94), and the one
precondition violation (60_exceptions.md R80). -/

namespace Sys2Proof.Machine

/-! ## The 32-bit primitives -/

/-- `u32(k)`, for any integer `k` (R9). -/
def u32 (k : Int) : Word := BitVec.ofInt 32 k

/-- `shl32(v, k) = u32(unsigned(v) * 2^k)` (R10). The rules use it for `k` in 0..31 only. Log entry 10. -/
def shl32 (v : Word) (k : Nat) : Word := u32 ((v.toNat * 2 ^ k : Nat) : Int)

/-- `lsr32(v, k) = u32(floor(unsigned(v) / 2^k))` (R10). -/
def lsr32 (v : Word) (k : Nat) : Word := u32 ((v.toNat / 2 ^ k : Nat) : Int)

/-- `asr32(v, k) = u32(floor(signed(v) / 2^k))` (R10); integer division by a positive divisor rounds down. -/
def asr32 (v : Word) (k : Nat) : Word := u32 (v.toInt / ((2 ^ k : Nat) : Int))

/-! ## Updates of the state -/

/-- The host drives `DIR` and `N` with the fields of an operation word (R22, R94). -/
def State.driveWord (s : State) (w : OpWord) : State :=
  { s with dir := some (opDir w), n := some (opAmount w) }

/-- The host drives `HI_IN` and `LO_IN` with a pair (R22, R94). -/
def State.driveOperand (s : State) (p : HalfPair) : State :=
  { s with hiIn := some p.hi, loIn := some p.lo }

/-- The host's carried pair becomes `p` (R94). -/
def State.holdPair (s : State) (p : HalfPair) : State := { s with pair := some p }

/-- The host's words still to present become `ws` (R94). -/
def State.setProgram (s : State) (ws : List OpWord) : State := { s with program := ws }

/-- One free draw was made. -/
def State.countDraw (s : State) : State := { s with draws := s.draws + 1 }

/-! ## One operation at the ports -/

/-- Performing instruction `i`, whose function is `f`: its word is on `DIR` and `N` during the operation (R31), the operand
is taken from `HI_IN`, `LO_IN`, and the host takes the pair `f` gives (R23, R94, R95; log entry 1). The outputs need no
write: with these inputs they are that pair (R24). An undriven operand input stops it (R24, log entry 4). -/
def operate (i : Instr) (f : HalfPair → HalfPair) (s : State) : Host.Outcome State Fault Refusal :=
  match s.operand with
  | some p => .next ((s.driveWord (encode i)).holdPair (f p))
  | none => .fault .undrivenInput

/-! ## The host's half of a run (R94) -/

/-- The host presents the next word of its list with the carried pair. With no word left it changes no input, and with
no carried pair it leaves the operand inputs as it drove them (log entries 8 and 9). -/
def State.present (s : State) : State :=
  match s.program, s.pair with
  | [], _ => s
  | w :: ws, some p => ((s.setProgram ws).driveWord w).driveOperand p
  | w :: ws, none => (s.setProgram ws).driveWord w

/-- One operation as the host drives it: present, read the operation word, perform it by `ex`. -/
def operationCycle (ex : Instr → State → Host.Outcome State Fault Refusal) (s : State) :
    Host.Outcome State Fault Refusal :=
  match s.present.opWord with
  | some w => ex (decode w) s.present
  | none => .fault .undrivenInput

/-- A host that has no carried pair and has not driven both operand inputs is given a start pair, which it will drive: a
free value. A host that has either is left as it is. No undriven input is read. Log entry 3. -/
def State.ensureOperand (s : State) : State :=
  match s.pair, s.operand with
  | none, none => s.holdPair Config.startPair
  | _, _ => s

/-- Loads `w` as the next word of the host's list, in the place of the word that stood there, with a start pair where
the host needs one. Log entry 3. -/
def State.loadWord (s : State) (w : OpWord) : State :=
  (s.setProgram (w :: s.program.drop 1)).ensureOperand

/-! ## The one precondition violation (60_exceptions.md R80) -/

/-- What a function-level call with an amount outside 0..31 does under each setting of `OOR_POLICY`: the fault with the
offending amount and nothing else, or a free draw made anew. -/
def amountViolation (policy : OorPolicy) (n : Int) (s : State) : Host.Outcome (HalfPair × State) Fault Refusal :=
  match policy with
  | .fault => .fault (.amountOutOfRange n)
  | .anyValue => .next (Config.freePair s.draws, s.countDraw)

end Sys2Proof.Machine
end

