-- ==== Sys2Proof/Machine/ShiftLeft.lean ====
section
/-! DEFINITION. `lshift n`, words 0x00 to 0x1F (41_shift_left.md R44 to R51). -/

namespace Sys2Proof.Machine

/-- The carry term (R46): the `n` top bits of `lo`, moved down. Used for `1 <= n <= 31`. -/
def carryTerm (lo : Word) (n : ShiftAmount) : Word := lsr32 lo (32 - n.toNat)

/-- `shift_left(p, n)` (R44), with its explicit `n = 0` case first (R45); the new halves are R47 and R48. -/
def shiftLeft (p : HalfPair) (n : ShiftAmount) : HalfPair :=
  if n = 0#5 then p
  else ⟨shl32 p.hi n.toNat ||| carryTerm p.lo n, shl32 p.lo n.toNat⟩

/-- `lshift n` at the ports (R44). It writes no flag and raises nothing on overflow (R49). -/
def execLshift (n : ShiftAmount) (s : State) : Host.Outcome State Fault Refusal :=
  operate (.lshift n) (fun p => shiftLeft p n) s

end Sys2Proof.Machine
end

