-- ==== Sys2Proof/Machine/ShiftRight.lean ====
section
/-! DEFINITION. `rshift n`, words 0x20 to 0x3F (42_shift_right.md R52 to R59). -/

namespace Sys2Proof.Machine

/-- The borrow term (R54): the `n` bottom bits of `hi`, moved up, computed on the bit pattern. Used for `1 <= n <= 31`. -/
def borrowTerm (hi : Word) (n : ShiftAmount) : Word := shl32 hi (32 - n.toNat)

/-- `shift_right(p, n)` (R52), with its explicit `n = 0` case first (R53); the new halves are R56 and R55. -/
def shiftRight (p : HalfPair) (n : ShiftAmount) : HalfPair :=
  if n = 0#5 then p
  else ⟨asr32 p.hi n.toNat, borrowTerm p.hi n ||| lsr32 p.lo n.toNat⟩

/-- `rshift n` at the ports (R52). The fill of the high half is arithmetic (R57, log entry 11). -/
def execRshift (n : ShiftAmount) (s : State) : Host.Outcome State Fault Refusal :=
  operate (.rshift n) (fun p => shiftRight p n) s

end Sys2Proof.Machine
end

