-- ==== Sys2Proof/Machine/Dispatch.lean ====
section
/-! DEFINITION. One arm per constructor of `Instr`, each one direct call of its meaning. -/

namespace Sys2Proof.Machine

def exec (i : Instr) (s : State) : Host.Outcome State Fault Refusal :=
  match i with
  | .lshift n => Sys2Proof.Machine.execLshift n s
  | .rshift n => Sys2Proof.Machine.execRshift n s

end Sys2Proof.Machine
end

