-- ==== Sys2Proof/Machine/Step.lean ====
section
/-! DEFINITION. One step: one operation as the host drives it (10_state.md R23, 70_reset_and_hazards.md R94). -/

namespace Sys2Proof.Machine

/-- One operation: present, decode, execute. -/
def step (s : State) : Host.Outcome State Fault Refusal := operationCycle exec s

/-- `s` with the instruction whose bits are `w`, numbered as spec/opcode_table.json numbers them, loaded as the next
word the host presents. Log entry 3. -/
def State.withFetchWord (s : State) (nbits w : Nat) : State := s.loadWord (wordOfByte (tableByte nbits w))

end Sys2Proof.Machine
end

