-- ==== Sys2Proof/Machine/Assembler.lean ====
section
/-! DEFINITION. The assembler's syntax, the pseudo-instruction `nop`, and the disassembler (30_encoding.md R36, R37).
A line is a list of characters. Log entry 13. -/

namespace Sys2Proof.Machine

/-- Why the assembler refuses a line (R36). -/
inductive AsmReject where
  /-- The line is no `lshift <n>`, `rshift <n>` or `nop`. -/
  | notAnOperation
  /-- The amount is not a decimal integer. -/
  | notDecimal
  /-- The amount is outside 0..31, so it has no word. -/
  | noEncoding (n : Int)
  deriving DecidableEq, Repr

/-- The mnemonic of `shift_left` (R32, R36). -/
def mnemonicLshift : List Char := ['l', 's', 'h', 'i', 'f', 't']

/-- The mnemonic of `shift_right` (R32, R36). -/
def mnemonicRshift : List Char := ['r', 's', 'h', 'i', 'f', 't']

/-- The one pseudo-instruction (R37). -/
def mnemonicNop : List Char := ['n', 'o', 'p']

/-- "Comments run from `#` to the end of the line" (R36). -/
def stripComment : List Char → List Char
  | [] => []
  | c :: cs => if c = '#' then [] else c :: stripComment cs

/-- A space or a tab separates the parts of a line. -/
def isBlank (c : Char) : Bool := c = ' ' || c = '\t'

/-- The parts of a line, `held` being the part read so far, last character first. -/
def fieldsFrom (held : List Char) : List Char → List (List Char)
  | [] => if held.isEmpty then [] else [held.reverse]
  | c :: cs =>
    if isBlank c then
      if held.isEmpty then fieldsFrom [] cs else held.reverse :: fieldsFrom [] cs
    else fieldsFrom (c :: held) cs

/-- The value of a decimal digit. -/
def digitValue (c : Char) : Option Nat :=
  if 48 ≤ c.toNat ∧ c.toNat ≤ 57 then some (c.toNat - 48) else none

/-- The number that `digits` continue after `value`. -/
def decimalFrom (value : Nat) : List Char → Option Nat
  | [] => some value
  | c :: cs =>
    match digitValue c with
    | some d => decimalFrom (value * 10 + d) cs
    | none => none

/-- A decimal integer, with a minus sign where it is negative. That `-0` is read as 0, so that `lshift -0` is the word
0x00, and that leading zeros are read, is the model's choice, where R36 is silent (DESIGN CHOICE, log entry 13). -/
def decimal : List Char → Option Int
  | [] => none
  | '-' :: [] => none
  | '-' :: c :: cs => (decimalFrom 0 (c :: cs)).map fun v => -(v : Int)
  | c :: cs => (decimalFrom 0 (c :: cs)).map fun v => (v : Int)

/-- The word of a direction and an amount written in the text; "an assembler refuses any other value" than 0..31 (R36). -/
def assembleAmount (d : Direction) (text : List Char) : Except AsmReject OpWord :=
  match decimal text with
  | none => .error .notDecimal
  | some n =>
    if amountInRange n then .ok (opWordOf (bitOfDirection d) (BitVec.ofInt 5 n)) else .error (.noEncoding n)

/-- One line: its word, or no word where the line is empty or only a comment (R36, R37). -/
def assembleLine (line : List Char) : Except AsmReject (Option OpWord) :=
  match fieldsFrom [] (stripComment line) with
  | [] => .ok none
  | [m] => if m = mnemonicNop then .ok (some 0x00#6) else .error .notAnOperation
  | [m, a] =>
    if m = mnemonicLshift then (assembleAmount .left a).map some
    else if m = mnemonicRshift then (assembleAmount .right a).map some
    else .error .notAnOperation
  | _ => .error .notAnOperation

/-- A program's lines, one operation a line, refused at the first line that is (R36). -/
def assemble : List (List Char) → Except AsmReject (List OpWord)
  | [] => .ok []
  | line :: rest =>
    match assembleLine line, assemble rest with
    | .error r, _ => .error r
    | .ok _, .error r => .error r
    | .ok none, .ok ws => .ok ws
    | .ok (some w), .ok ws => .ok (w :: ws)

/-- A decimal digit's character. -/
def digitChar (d : Nat) : Char := Char.ofNat (48 + d)

/-- An amount in decimal. -/
def decimalText (n : ShiftAmount) : List Char :=
  if n.toNat < 10 then [digitChar n.toNat] else [digitChar (n.toNat / 10), digitChar (n.toNat % 10)]

/-- The mnemonic of a direction (R32). -/
def mnemonicOf : Direction → List Char
  | .left => mnemonicLshift
  | .right => mnemonicRshift

/-- The disassembler; it never prints `nop` (R37). -/
def disassemble (w : OpWord) : List Char :=
  mnemonicOf (decode w).direction ++ ' ' :: decimalText (decode w).amount

end Sys2Proof.Machine
end

