-- ==== Sys2Proof/Machine/Flags.lean ====
section
/-! DEFINITION. The block has no flag and no condition code (10_state.md R19): no operation computes one. What stands
here are the conditions a HOST computes for itself from the ports: the sign (R19), the overflow test before a left
shift (70_reset_and_hazards.md R93) and `max_left_shift` (43_properties.md R63). -/

namespace Sys2Proof.Machine

/-- "A host that wants the sign reads `HI_OUT[31]`" (10_state.md R19). -/
def signBit (p : HalfPair) : Bool := p.hi.getLsbD 31

/-- The host's test of 70_reset_and_hazards.md R93: the `n + 1` top bits `hi[31 : 31-n]` are all equal. -/
def topBitsEqual (hi : Word) (n : ShiftAmount) : Bool :=
  (List.range (n.toNat + 1)).all fun j => hi.getLsbD (31 - j) == hi.getLsbD 31

/-- Zero bits among bits `k-1 .. 0` of `x` that stand above the most significant one bit among them. -/
def leadingZerosBelow : Nat → DWord → Nat
  | 0, _ => 0
  | k + 1, x => if x.getLsbD k then 0 else leadingZerosBelow k x + 1

/-- `count_leading_zero_bits(x)` (43_properties.md R63). -/
def clz64 (x : DWord) : Nat := leadingZerosBelow 64 x

/-- `max_left_shift(x)` for a non-negative `x` (43_properties.md R63). Log entry 12. -/
def maxLeftShift (x : DWord) : Nat := if x = 0 then 31 else min 31 (clz64 x - 1)

end Sys2Proof.Machine
end

