-- ==== Sys2Proof/Machine/FunctionLevel.lean ====
section
/-! DEFINITION. The function level (00_scope.md R6): `shift_left` and `shift_right` called with an amount of any size,
and a run of such calls (60_exceptions.md R80, R84, R85; 70_reset_and_hazards.md R94). Log entry 15. -/

namespace Sys2Proof.Machine

/-- `shift_left(p, n)` called with any integer `n`: the amount is tested before anything else (R80, R84). -/
def shiftLeftCall (policy : OorPolicy) (p : HalfPair) (n : Int) (s : State) :
    Host.Outcome (HalfPair × State) Fault Refusal :=
  if amountInRange n then .next (shiftLeft p (BitVec.ofInt 5 n), s) else amountViolation policy n s

/-- `shift_right(p, n)` called with any integer `n`. -/
def shiftRightCall (policy : OorPolicy) (p : HalfPair) (n : Int) (s : State) :
    Host.Outcome (HalfPair × State) Fault Refusal :=
  if amountInRange n then .next (shiftRight p (BitVec.ofInt 5 n), s) else amountViolation policy n s

/-- The direction selects the function (10_state.md R16). -/
def performCall (policy : OorPolicy) (c : Call) (p : HalfPair) (s : State) :
    Host.Outcome (HalfPair × State) Fault Refusal :=
  match c.direction with
  | .left => shiftLeftCall policy p c.amount s
  | .right => shiftRightCall policy p c.amount s

/-- A run at the function level: each call takes the pair of the one before it; a fault ends the run with no final
pair (R94). -/
def performCalls (policy : OorPolicy) : List Call → HalfPair → State → Host.Outcome (HalfPair × State) Fault Refusal
  | [], p, s => .next (p, s)
  | c :: cs, p, s =>
    match performCall policy c p s with
    | .next (q, t) => performCalls policy cs q t
    | .fault r => .fault r
    | .refused r => .refused r

/-- A call on this machine, under its own setting of `OOR_POLICY`. -/
def call (c : Call) (p : HalfPair) (s : State) : Host.Outcome (HalfPair × State) Fault Refusal :=
  performCall Config.oorPolicy c p s

end Sys2Proof.Machine
end

