-- ==== Sys2Proof/Machine/PortLevel.lean ====
section
/-! DEFINITION. The port level as one function of the inputs, with no state and no decoder (10_state.md R23); the run of
a list of words as the host's loop (70_reset_and_hazards.md R94); and the output ports, which hold nothing of their own
and are that function of the inputs at every moment (R24). -/

namespace Sys2Proof.Machine

/-- The function of R23: `DIR = 0` is `shift_left`, else `shift_right`. -/
def portFunction (d : BitVec 1) (n : ShiftAmount) (p : HalfPair) : HalfPair :=
  if d = 0#1 then shiftLeft p n else shiftRight p n

/-- `run([w1, ..., wk], p0)` of R94. -/
def runWords : List OpWord → HalfPair → HalfPair
  | [], p => p
  | w :: ws, p => runWords ws (portFunction (opDir w) (opAmount w) p)

/-- The result HalfPair `(HI_OUT, LO_OUT)` at a moment: the function of R23 of whatever the inputs are, and no value while
one of them is undriven (10_state.md R24). -/
def State.result (s : State) : Option HalfPair :=
  match s.dir, s.n, s.operand with
  | some d, some n, some p => some (portFunction d n p)
  | _, _, _ => none

/-- Port `HI_OUT` (R22, R24). -/
def State.hiOut (s : State) : Option Word := s.result.map HalfPair.hi

/-- Port `LO_OUT` (R22, R24). -/
def State.loOut (s : State) : Option Word := s.result.map HalfPair.lo

/-- `X_OUT = {HI_OUT, LO_OUT}` (R22, 20_memory.md R25). -/
def State.xOut (s : State) : Option DWord := s.result.map recompose

end Sys2Proof.Machine
end

