-- ==== Sys2Proof/Safety.lean ====
section
/-! DEFINITION. What counts as a good state and a safe run. -/

namespace Sys2Proof.Machine

/-- The next operation has all four inputs: the host owes nothing else (70_reset_and_hazards.md R91, R95). -/
def Ready (s : State) : Bool := s.present.opWord.isSome && s.present.operand.isSome

/-- R23 and R24 (10_state.md) written out on the four input ports: the outputs show what the direction selects, and no
value while an input is undriven. -/
abbrev Coherent (s : State) : Prop :=
  s.result = match s.dir, s.n, s.hiIn, s.loIn with
    | some d, some n, some hi, some lo => some (if d = 0#1 then shiftLeft ⟨hi, lo⟩ n else shiftRight ⟨hi, lo⟩ n)
    | _, _, _, _ => none

/-- The host's carried pair is the pair the outputs show (70_reset_and_hazards.md R94; log entry 8 where no word is
left). -/
abbrev Taken (s : State) : Prop := s.pair = s.result

/-- A run of `k` steps from `s` meets no fault and no refusal. -/
def SafeFor (k : Nat) (s : State) : Prop := ∃ t, Sys2Proof.core.run k s = Host.Outcome.next t

end Sys2Proof.Machine
end

