-- ==== Sys2Proof/Certificates/Slice0/Obligations.lean ====
section
/-! DEFINITION. The statements for the provers. Each docstring names the rule of spec/ it formalises. -/

open Sys2Proof Sys2Proof.Machine

/-! ## Encoding -/

/-- 30_encoding.md R34: match and mask, word ranges, the encoder, and both round trips on the 64 words. -/
def Obligations.DecodeAndEncodeFollowTheOpcodeMap : Prop :=
  (∀ w : OpWord, w &&& 0x20#6 = 0x00#6 → decode w = .lshift ((w &&& 0x1F#6).setWidth 5)) ∧
  (∀ w : OpWord, w &&& 0x20#6 = 0x20#6 → decode w = .rshift ((w &&& 0x1F#6).setWidth 5)) ∧
  (∀ w : OpWord, w.toNat ≤ 0x1F → decode w = .lshift (BitVec.ofNat 5 w.toNat)) ∧
  (∀ w : OpWord, 0x20 ≤ w.toNat → decode w = .rshift (BitVec.ofNat 5 (w.toNat - 0x20))) ∧
  (∀ n : ShiftAmount, encode (.lshift n) = (0#6 <<< 5) ||| n.setWidth 6) ∧
  (∀ n : ShiftAmount, encode (.rshift n) = (1#6 <<< 5) ||| n.setWidth 6) ∧
  (∀ w : OpWord, encode (decode w) = w) ∧
  (∀ i : Instr, decode (encode i) = i)

/-- 30_encoding.md R35: each of the 64 words has exactly one meaning and none traps, an amount outside 0..31 has no word,
and the two words 0x00 and 0x20, and no other, give every operand back. -/
def Obligations.EveryOperationWordIsLegal : Prop :=
  (∀ w : OpWord, ∃ i : Instr, i.wellFormed = true ∧ encode i = w ∧ ∀ j : Instr, encode j = w → j = i) ∧
  (∀ (w : OpWord) (s : State) (p : HalfPair), s.operand = some p → ∃ t : State, exec (decode w) s = .next t) ∧
  (∀ (i : Instr) (a : Int), amountInRange a = false → (i.amount.toNat : Int) ≠ a) ∧
  (∀ w : OpWord, (∀ (s : State) (p : HalfPair), s.operand = some p →
    ∃ t : State, exec (decode w) s = .next t ∧ t.result = some p) ↔ (w = 0x00#6 ∨ w = 0x20#6))

/-- 30_encoding.md R31 to R34: words written out bit by bit, `DIR` first, decode to what they stand for. -/
def Obligations.DecodeOfWordsWrittenOut : Prop :=
  decode 0b000000#6 = .lshift 0#5 ∧ decode 0b000010#6 = .lshift 2#5 ∧ decode 0b010000#6 = .lshift 16#5 ∧
  decode 0b011111#6 = .lshift 31#5 ∧ decode 0b100000#6 = .rshift 0#5 ∧ decode 0b100010#6 = .rshift 2#5 ∧
  decode 0b110000#6 = .rshift 16#5 ∧ decode 0b111111#6 = .rshift 31#5

/-- 30_encoding.md R31, R34: a program kept one word a byte reads back as the program, whole and one instruction at a
time; two bytes that differ only above bit 5 hold the same word (the last is the model's reading of R31, log entry 7). -/
def Obligations.ProgramImageReadsBack : Prop :=
  (∀ is : List Instr, decodeImage (encodeImage is) = is) ∧
  (∀ bs : List Byte, (∀ b ∈ bs, b.toNat < 64) → encodeImage (decodeImage bs) = bs) ∧
  (∀ (i : Instr) (rest : List Byte), decodeBytes (encodeByte i :: rest) = .ok (i, rest)) ∧
  (∀ (b c : Byte) (rest : List Byte), b &&& 0x3F#8 = c &&& 0x3F#8 → decodeBytes (b :: rest) = decodeBytes (c :: rest))

/-- 30_encoding.md R36, R37: disassembly followed by assembly returns the same word, `nop` is the word 0x00 and is never
printed, and an amount outside 0..31 is refused. -/
def Obligations.AssemblerReturnsTheDisassembledWord : Prop :=
  (∀ w : OpWord, assembleLine (disassemble w) = .ok (some w)) ∧
  assembleLine mnemonicNop = .ok (some 0x00#6) ∧
  (∀ w : OpWord, disassemble w ≠ mnemonicNop) ∧
  (∀ (d : Direction) (text : List Char) (n : Int), decimal text = some n → amountInRange n = false →
    assembleAmount d text = .error (.noEncoding n)) ∧
  (∀ (d : Direction) (text : List Char) (n : Int), decimal text = some n → amountInRange n = true →
    ∃ w, assembleAmount d text = .ok w ∧ ((opAmount w).toNat : Int) = n ∧ directionOfBit (opDir w) = d)

/-! ## Primitives and codec -/

/-- 00_scope.md R10, for `0 <= k <= 31`: the three primitives as numbers and bit by bit. -/
def Obligations.PrimitivesFollowTheirArithmetic : Prop :=
  ∀ (v : Word) (k : Nat), k ≤ 31 →
    (shl32 v k).toNat = v.toNat * 2 ^ k % 2 ^ 32 ∧
    (lsr32 v k).toNat = v.toNat / 2 ^ k ∧
    (asr32 v k).toInt = v.toInt / (2 : Int) ^ k ∧
    (∀ j, j < 32 → (shl32 v k).getLsbD j = (decide (k ≤ j) && v.getLsbD (j - k))) ∧
    (∀ j, j < 32 → (lsr32 v k).getLsbD j = (decide (j + k < 32) && v.getLsbD (j + k))) ∧
    (∀ j, j < 32 → (asr32 v k).getLsbD j = if j + k < 32 then v.getLsbD (j + k) else v.getLsbD 31)

/-- 40_codec.md R39: the slices, the source's wording, the numbers, and the corner cases. -/
def Obligations.DecomposeGivesFloorAndRemainder : Prop :=
  (∀ x : DWord,
    (decompose x).hi = (x.sshiftRight 32).setWidth 32 ∧
    (decompose x).lo = (x &&& 0xFFFFFFFF#64).setWidth 32 ∧
    (∀ j, j < 32 → (decompose x).hi.getLsbD j = x.getLsbD (32 + j) ∧ (decompose x).lo.getLsbD j = x.getLsbD j) ∧
    (decompose x).hi.toInt = x.toInt / 2 ^ 32 ∧
    ((decompose x).lo.toNat : Int) = x.toInt % 2 ^ 32) ∧
  decompose 0#64 = ⟨0x00000000#32, 0x00000000#32⟩ ∧
  decompose (BitVec.ofInt 64 (-1)) = ⟨0xFFFFFFFF#32, 0xFFFFFFFF#32⟩ ∧
  decompose (BitVec.ofInt 64 (-(2 ^ 63))) = ⟨0x80000000#32, 0x00000000#32⟩ ∧
  decompose (BitVec.ofInt 64 (2 ^ 63 - 1)) = ⟨0x7FFFFFFF#32, 0xFFFFFFFF#32⟩ ∧
  decompose (BitVec.ofInt 64 (2 ^ 32 - 1)) = ⟨0x00000000#32, 0xFFFFFFFF#32⟩ ∧
  decompose (BitVec.ofInt 64 (-(2 ^ 32))) = ⟨0xFFFFFFFF#32, 0x00000000#32⟩ ∧
  decompose 5#64 = ⟨0#32, 5#32⟩

/-- 40_codec.md R40 and 10_state.md R14: the recomposed vector is the source's `(hi << 32) | lo`, and read as signed it
is the value of the pair, whose sign is `hi`'s. -/
def Obligations.RecomposeGivesTheValueOfThePair : Prop :=
  (∀ p : HalfPair,
    recompose p = (p.hi.signExtend 64 <<< 32) ||| p.lo.setWidth 64 ∧
    (recompose p).toInt = val p ∧
    val p = p.hi.toInt * 2 ^ 32 + p.lo.toNat ∧
    -(2 ^ 63) ≤ val p ∧ val p ≤ 2 ^ 63 - 1 ∧
    (val p < 0 ↔ p.hi.getLsbD 31 = true)) ∧
  (recompose ⟨0xFFFFFFFF#32, 0x00000000#32⟩).toInt = -(2 ^ 32) ∧
  (recompose ⟨0x00000000#32, 0x80000000#32⟩).toInt = 2 ^ 31 ∧
  (recompose ⟨0x80000000#32, 0x00000000#32⟩).toInt = -(2 ^ 63) ∧
  (recompose ⟨0#32, 20#32⟩).toInt = 20

/-- 40_codec.md R41: the round trip in both directions, so every pair is the image of exactly one value. -/
def Obligations.CodecRoundTrip : Prop :=
  (∀ x : DWord, recompose (decompose x) = x) ∧
  (∀ p : HalfPair, decompose (recompose p) = p) ∧
  (∀ p : HalfPair, ∃ x : DWord, decompose x = p ∧ ∀ y : DWord, decompose y = p → y = x) ∧
  (∀ p : HalfPair, val p = (recompose p).toInt)

/-- 20_memory.md R25: bit `i` of the low half is bit `i` of the 64-bit view and bit `i` of the high half is bit `32+i`,
on the input and on the output ports. -/
def Obligations.HalvesAreTheBitsOfTheWideView : Prop :=
  ∀ (s : State) (p : HalfPair),
    (s.operand = some p → ∃ x, s.xIn = some x ∧
      ∀ i, i < 32 → p.lo.getLsbD i = x.getLsbD i ∧ p.hi.getLsbD i = x.getLsbD (32 + i)) ∧
    (s.result = some p → ∃ x, s.xOut = some x ∧
      ∀ i, i < 32 → p.lo.getLsbD i = x.getLsbD i ∧ p.hi.getLsbD i = x.getLsbD (32 + i))

/-! ## lshift -/

/-- 41_shift_left.md R44, R45: `lshift` completes from every state whose operand inputs are driven, with the pair of
the rule's pseudocode on the outputs; its word is on `DIR` and `N` (30_encoding.md R31), the host's carried pair is that
pair (70_reset_and_hazards.md R94; that it is so in the same step is log entry 1), and everything else is as before. -/
def Obligations.LshiftCompletesWithItsPair : Prop :=
  ∀ (n : ShiftAmount) (s : State) (hi lo : Word), s.hiIn = some hi → s.loIn = some lo →
    ∃ (t : State) (newHi newLo : Word), exec (.lshift n) s = .next t ∧
      newHi = (if n.toNat = 0 then hi else shl32 hi n.toNat ||| lsr32 lo (32 - n.toNat)) ∧
      newLo = (if n.toNat = 0 then lo else shl32 lo n.toNat) ∧
      t.hiOut = some newHi ∧ t.loOut = some newLo ∧
      t = { s with dir := some 0#1, n := some n, pair := some ⟨newHi, newLo⟩ }

/-- 41_shift_left.md R44, its corner case `n = 31`. -/
def Obligations.LshiftByThirtyOne : Prop :=
  ∀ (s : State) (hi lo : Word), s.hiIn = some hi → s.loIn = some lo →
    ∃ t : State, exec (.lshift 31#5) s = .next t ∧
      t.hiOut = some (hi.extractLsb' 0 1 ++ lo.extractLsb' 1 31) ∧
      t.loOut = some (lo.extractLsb' 0 1 ++ 0#31)

/-- 41_shift_left.md R46, R47, R48: the carry term and the two new halves bit by bit; the two terms of the high half
never share a bit, so OR is sum; no bit of `lo` is lost between the halves. -/
def Obligations.LshiftHalvesAreConcatenations : Prop :=
  ∀ (hi lo : Word) (n : ShiftAmount), 1 ≤ n.toNat →
    carryTerm lo n = lsr32 lo (32 - n.toNat) ∧
    (carryTerm lo n).toNat < 2 ^ n.toNat ∧
    (∀ j, j < 32 → (carryTerm lo n).getLsbD j = (decide (j < n.toNat) && lo.getLsbD (32 - n.toNat + j))) ∧
    (shiftLeft ⟨hi, lo⟩ n).hi = shl32 hi n.toNat ||| carryTerm lo n ∧
    (shiftLeft ⟨hi, lo⟩ n).hi = shl32 hi n.toNat + carryTerm lo n ∧
    shl32 hi n.toNat &&& carryTerm lo n = 0#32 ∧
    (∀ j, j < 32 → (shiftLeft ⟨hi, lo⟩ n).hi.getLsbD j =
      if j < n.toNat then lo.getLsbD (32 - n.toNat + j) else hi.getLsbD (j - n.toNat)) ∧
    (shiftLeft ⟨hi, lo⟩ n).lo = shl32 lo n.toNat ∧
    (∀ j, j < 32 → (shiftLeft ⟨hi, lo⟩ n).lo.getLsbD j = (decide (n.toNat ≤ j) && lo.getLsbD (j - n.toNat))) ∧
    lo.toNat * 2 ^ n.toNat = (carryTerm lo n).toNat * 2 ^ 32 + (shiftLeft ⟨hi, lo⟩ n).lo.toNat

/-- 41_shift_left.md R50: for every operand and amount the 64-bit result is the logical left shift modulo `2^64`, and
the exact product where that fits in signed 64 bits, negative values too. -/
def Obligations.LshiftIsTheWideLeftShift : Prop :=
  ∀ (n : ShiftAmount) (s : State) (p : HalfPair), s.operand = some p →
    ∃ (t : State) (q : HalfPair), exec (.lshift n) s = .next t ∧ t.result = some q ∧
      recompose q = recompose p <<< n.toNat ∧
      (recompose q).toNat = (recompose p).toNat * 2 ^ n.toNat % 2 ^ 64 ∧
      (-(2 ^ 63) ≤ val p * 2 ^ n.toNat → val p * 2 ^ n.toNat ≤ 2 ^ 63 - 1 → val q = val p * 2 ^ n.toNat)

/-- 41_shift_left.md R49: an overflowing left shift is neither detected nor refused: it gives the low 64 bits of the
product, and the operand inputs, the host's list and the draws are as before. The clause on the word is no part of R49: the
word is on `DIR` and `N` during an operation (30_encoding.md R31), and that `exec` puts it there is the model's choice (log
entry 1). -/
def Obligations.LshiftOverflowIsSilent : Prop :=
  ∀ (n : ShiftAmount) (s : State) (p : HalfPair), s.operand = some p →
    (val p * 2 ^ n.toNat < -(2 ^ 63) ∨ 2 ^ 63 - 1 < val p * 2 ^ n.toNat) →
    ∃ (t : State) (q : HalfPair), exec (.lshift n) s = .next t ∧ t.result = some q ∧
      recompose q = BitVec.ofInt 64 (val p * 2 ^ n.toNat) ∧
      t.opWord = some (encode (.lshift n)) ∧ t.hiIn = s.hiIn ∧ t.loIn = s.loIn ∧ t.program = s.program ∧
      t.draws = s.draws

/-! ## rshift -/

/-- 42_shift_right.md R52, R53: `rshift` completes from every state whose operand inputs are driven, with the pair of
the rule's pseudocode on the outputs; its word is on `DIR` and `N` (30_encoding.md R31), the host's carried pair is that
pair (70_reset_and_hazards.md R94; that it is so in the same step is log entry 1), and everything else is as before. -/
def Obligations.RshiftCompletesWithItsPair : Prop :=
  ∀ (n : ShiftAmount) (s : State) (hi lo : Word), s.hiIn = some hi → s.loIn = some lo →
    ∃ (t : State) (newHi newLo : Word), exec (.rshift n) s = .next t ∧
      newHi = (if n.toNat = 0 then hi else asr32 hi n.toNat) ∧
      newLo = (if n.toNat = 0 then lo else shl32 hi (32 - n.toNat) ||| lsr32 lo n.toNat) ∧
      t.hiOut = some newHi ∧ t.loOut = some newLo ∧
      t = { s with dir := some 1#1, n := some n, pair := some ⟨newHi, newLo⟩ }

/-- 42_shift_right.md R52, its corner cases: `n = 31`, the kept sign, and the two fixed points. -/
def Obligations.RshiftCornerCases : Prop :=
  (∀ (s : State) (hi lo : Word), s.hiIn = some hi → s.loIn = some lo →
    ∃ t : State, exec (.rshift 31#5) s = .next t ∧
      t.hiOut = some (if hi.toInt < 0 then 0xFFFFFFFF#32 else 0x00000000#32) ∧
      t.loOut = some (hi.extractLsb' 0 31 ++ lo.extractLsb' 31 1)) ∧
  (∀ (p : HalfPair) (n : ShiftAmount), signBit (shiftRight p n) = signBit p) ∧
  (∀ n : ShiftAmount, shiftRight ⟨0xFFFFFFFF#32, 0xFFFFFFFF#32⟩ n = ⟨0xFFFFFFFF#32, 0xFFFFFFFF#32⟩) ∧
  (∀ n : ShiftAmount, shiftRight ⟨0#32, 0#32⟩ n = ⟨0#32, 0#32⟩)

/-- 42_shift_right.md R54, R55, R56: the borrow term and the two new halves bit by bit; the two terms of the low half
never share a bit, so OR is sum; the high half is floor division; no bit of `hi` is lost between the halves. -/
def Obligations.RshiftHalvesAreConcatenations : Prop :=
  ∀ (hi lo : Word) (n : ShiftAmount), 1 ≤ n.toNat →
    borrowTerm hi n = shl32 hi (32 - n.toNat) ∧
    (∀ j, j < 32 → (borrowTerm hi n).getLsbD j = (decide (32 - n.toNat ≤ j) && hi.getLsbD (j - (32 - n.toNat)))) ∧
    (shiftRight ⟨hi, lo⟩ n).lo = borrowTerm hi n ||| lsr32 lo n.toNat ∧
    (shiftRight ⟨hi, lo⟩ n).lo = borrowTerm hi n + lsr32 lo n.toNat ∧
    borrowTerm hi n &&& lsr32 lo n.toNat = 0#32 ∧
    (∀ j, j < 32 → (shiftRight ⟨hi, lo⟩ n).lo.getLsbD j =
      if j < 32 - n.toNat then lo.getLsbD (j + n.toNat) else hi.getLsbD (j - (32 - n.toNat))) ∧
    (shiftRight ⟨hi, lo⟩ n).hi = asr32 hi n.toNat ∧
    (∀ j, j < 32 → (shiftRight ⟨hi, lo⟩ n).hi.getLsbD j =
      if j + n.toNat < 32 then hi.getLsbD (j + n.toNat) else hi.getLsbD 31) ∧
    (shiftRight ⟨hi, lo⟩ n).hi.toInt = hi.toInt / (2 : Int) ^ n.toNat ∧
    hi.toInt * 2 ^ (32 - n.toNat) = (shiftRight ⟨hi, lo⟩ n).hi.toInt * 2 ^ 32 + (borrowTerm hi n).toNat

/-- 42_shift_right.md R58: for every operand and amount the 64-bit result is the arithmetic right shift, the floor of
the value divided by `2^n`, for negative values too. -/
def Obligations.RshiftIsTheWideArithmeticShift : Prop :=
  ∀ (n : ShiftAmount) (s : State) (p : HalfPair), s.operand = some p →
    ∃ (t : State) (q : HalfPair), exec (.rshift n) s = .next t ∧ t.result = some q ∧
      recompose q = (recompose p).sshiftRight n.toNat ∧
      val q = val p / (2 : Int) ^ n.toNat

/-- 42_shift_right.md R59: a right shift never overflows and the value never grows in magnitude, with equality for
`n = 0`, for 0 and for -1 and for no other. -/
def Obligations.RightShiftNeverGrowsTheMagnitude : Prop :=
  ∀ (p : HalfPair) (n : ShiftAmount),
    (val (shiftRight p n)).natAbs ≤ (val p).natAbs ∧
    ((val (shiftRight p n)).natAbs = (val p).natAbs ↔ (n = 0#5 ∨ val p = 0 ∨ val p = -1))

/-! ## Laws (43_properties.md) -/

/-- R60: the no-op property, for every value and so for every pair. -/
def Obligations.ShiftByZeroIsNoOp : Prop :=
  (∀ x : DWord, shiftLeft (decompose x) 0#5 = decompose x ∧ shiftRight (decompose x) 0#5 = decompose x) ∧
  (∀ p : HalfPair, shiftLeft p 0#5 = p ∧ shiftRight p 0#5 = p)

/-- R61: the right-shift equivalence property. -/
def Obligations.RightShiftIsFloorDivision : Prop :=
  ∀ (x : DWord) (n : ShiftAmount), 0 ≤ x.toInt → 1 ≤ n.toNat →
    shiftRight (decompose x) n = decompose (BitVec.ofInt 64 (x.toInt / (2 : Int) ^ n.toNat))

/-- R62: the left-shift equivalence property, bounded by `max_left_shift`; within the bound the product does not
overflow. -/
def Obligations.LeftShiftIsTheProductWithinTheBound : Prop :=
  ∀ (x : DWord) (n : ShiftAmount), 0 ≤ x.toInt → 1 ≤ n.toNat → n.toNat ≤ maxLeftShift x →
    x.toInt * 2 ^ n.toNat ≤ 2 ^ 63 - 1 ∧
    shiftLeft (decompose x) n = decompose (BitVec.ofInt 64 (x.toInt * 2 ^ n.toNat))

/-- R63: `max_left_shift(x)` is the largest amount, at most 31, whose shift does not overflow; its formula; the count
of leading zeros it uses; and the rule's table. -/
def Obligations.MaxLeftShiftIsTheLargestAmount : Prop :=
  (∀ x : DWord, 0 ≤ x.toInt →
    maxLeftShift x ≤ 31 ∧
    (∀ n, n ≤ 31 → (n ≤ maxLeftShift x ↔ x.toInt * 2 ^ n ≤ 2 ^ 63 - 1)) ∧
    (x = 0#64 → maxLeftShift x = 31) ∧
    (x ≠ 0#64 → maxLeftShift x = min 31 (clz64 x - 1))) ∧
  (∀ x : DWord, x ≠ 0#64 → clz64 x ≤ 63 ∧ x.getLsbD (63 - clz64 x) = true ∧
    ∀ j, 63 - clz64 x < j → x.getLsbD j = false) ∧
  maxLeftShift 0#64 = 31 ∧ maxLeftShift 1#64 = 31 ∧ maxLeftShift 5#64 = 31 ∧ maxLeftShift 65536#64 = 31 ∧
  maxLeftShift 0x00000000FFFFFFFF#64 = 31 ∧ maxLeftShift 0x0000000100000000#64 = 30 ∧
  maxLeftShift 0x0000010000000000#64 = 22 ∧ maxLeftShift 0x0123456789ABCDEF#64 = 6 ∧
  maxLeftShift 0x3FFFFFFFFFFFFFFF#64 = 1 ∧ maxLeftShift 0x4000000000000000#64 = 0 ∧
  maxLeftShift 0x7FFFFFFFFFFFFFFF#64 = 0

/-- R64: the zero pair is a fixed point of all 64 operations. -/
def Obligations.ZeroPairIsFixedByEveryOperation : Prop :=
  ∀ (w : OpWord) (s : State), s.operand = some ⟨0#32, 0#32⟩ →
    ∃ t : State, exec (decode w) s = .next t ∧ t.result = some ⟨0#32, 0#32⟩

/-- R65: the source's concrete example. -/
def Obligations.ConcreteExampleOfTheSource : Prop :=
  decompose 5#64 = ⟨0#32, 5#32⟩ ∧
  shiftLeft (decompose 5#64) 2#5 = ⟨0#32, 20#32⟩ ∧
  shiftLeft (decompose 5#64) 2#5 = decompose 20#64 ∧
  shiftRight (decompose 20#64) 2#5 = ⟨0#32, 5#32⟩

/-- R66: shifts of one direction compose to the shift by the sum of the amounts, in any order; shifts of different
directions do not commute; the rule's example. -/
def Obligations.ShiftsOfOneDirectionCompose : Prop :=
  (∀ (ns : List ShiftAmount) (p : HalfPair),
    (recompose (runWords (ns.map fun n => encode (.lshift n)) p)).toNat =
      (recompose p).toNat * 2 ^ (ns.map BitVec.toNat).sum % 2 ^ 64 ∧
    (64 ≤ (ns.map BitVec.toNat).sum → runWords (ns.map fun n => encode (.lshift n)) p = ⟨0#32, 0#32⟩)) ∧
  (∀ (ns : List ShiftAmount) (p : HalfPair),
    val (runWords (ns.map fun n => encode (.rshift n)) p) = val p / (2 : Int) ^ (ns.map BitVec.toNat).sum ∧
    (63 ≤ (ns.map BitVec.toNat).sum →
      val (runWords (ns.map fun n => encode (.rshift n)) p) = if 0 ≤ val p then 0 else -1)) ∧
  (∀ (ns ms : List ShiftAmount) (p : HalfPair), ns.Perm ms →
    runWords (ns.map fun n => encode (.lshift n)) p = runWords (ms.map fun n => encode (.lshift n)) p ∧
    runWords (ns.map fun n => encode (.rshift n)) p = runWords (ms.map fun n => encode (.rshift n)) p) ∧
  (∃ p : HalfPair, runWords [encode (.lshift 1#5), encode (.rshift 1#5)] p ≠
    runWords [encode (.rshift 1#5), encode (.lshift 1#5)] p) ∧
  runWords [encode (.lshift 31#5), encode (.lshift 9#5)] ⟨0#32, 1#32⟩ = ⟨0x00000100#32, 0x00000000#32⟩

/-- R67: left then right, right then left. -/
def Obligations.LeftThenRightAndRightThenLeft : Prop :=
  (∀ (p : HalfPair) (n : ShiftAmount),
    (shiftRight (shiftLeft p n) n = p ↔
      ∀ j, j ≤ n.toNat → (recompose p).getLsbD (63 - j) = (recompose p).getLsbD 63) ∧
    (shiftRight (shiftLeft p n) n = p ↔
      (-(2 ^ 63) ≤ val p * 2 ^ n.toNat ∧ val p * 2 ^ n.toNat ≤ 2 ^ 63 - 1)) ∧
    recompose (shiftRight (shiftLeft p n) n) = ((recompose p).setWidth (64 - n.toNat)).signExtend 64 ∧
    (∀ j, j < 64 → (recompose (shiftLeft (shiftRight p n) n)).getLsbD j =
      (decide (n.toNat ≤ j) && (recompose p).getLsbD j))) ∧
  (∀ (x : DWord) (n : ShiftAmount), 0 ≤ x.toInt →
    ((shiftRight (shiftLeft (decompose x) n) n = decompose x ↔ n.toNat ≤ clz64 x - 1) ∧
     (n.toNat ≤ maxLeftShift x → shiftRight (shiftLeft (decompose x) n) n = decompose x))) ∧
  shiftLeft ⟨0x40000000#32, 0#32⟩ 1#5 = ⟨0x80000000#32, 0#32⟩ ∧
  shiftRight ⟨0x80000000#32, 0#32⟩ 1#5 = ⟨0xC0000000#32, 0#32⟩

/-- R69: every bit of the result, in the 64-bit view and in the halves. -/
def Obligations.EveryBitOfTheResult : Prop :=
  ∀ (p : HalfPair) (n : ShiftAmount),
    (∀ i, i < 64 → (recompose (shiftLeft p n)).getLsbD i =
      if n.toNat ≤ i then (recompose p).getLsbD (i - n.toNat) else false) ∧
    (∀ i, i < 64 → (recompose (shiftRight p n)).getLsbD i =
      if i ≤ 63 - n.toNat then (recompose p).getLsbD (i + n.toNat) else (recompose p).getLsbD 63) ∧
    (∀ j, j < 32 →
      (shiftLeft p n).hi.getLsbD j =
        (if n.toNat ≤ j then p.hi.getLsbD (j - n.toNat) else p.lo.getLsbD (32 + j - n.toNat)) ∧
      (shiftLeft p n).lo.getLsbD j = (if n.toNat ≤ j then p.lo.getLsbD (j - n.toNat) else false) ∧
      (shiftRight p n).lo.getLsbD j =
        (if j ≤ 31 - n.toNat then p.lo.getLsbD (j + n.toNat) else p.hi.getLsbD (j + n.toNat - 32)) ∧
      (shiftRight p n).hi.getLsbD j = (if j ≤ 31 - n.toNat then p.hi.getLsbD (j + n.toNat) else p.hi.getLsbD 31))

/-! ## One operation at the ports, and the step -/

/-- 10_state.md R23 and 70_reset_and_hazards.md R94: a step is the host presenting an operation and `exec` of the
instruction its word decodes to. What the host presents: the next word with the carried pair; with no word left, the
inputs as they are (the model's choice, log entry 8); with a word and no carried pair, the word alone (the model's
choice, log entry 9). An instruction that completes has its own word on the ports and leaves the host carrying the pair
the outputs show (log entry 1). -/
def Obligations.StepRunsTheDecodedInstruction : Prop :=
  (∀ (s : State) (w : OpWord), s.present.opWord = some w → step s = exec (decode w) s.present) ∧
  (∀ (s : State) (w : OpWord) (ws : List OpWord) (p : HalfPair), s.program = w :: ws → s.pair = some p →
    s.present = { s with
      program := ws, dir := some (opDir w), n := some (opAmount w), hiIn := some p.hi, loIn := some p.lo } ∧
    s.present.opWord = some w) ∧
  (∀ s : State, s.program = [] → s.present = s) ∧
  (∀ (s : State) (w : OpWord) (ws : List OpWord), s.program = w :: ws → s.pair = none →
    s.present = { s with program := ws, dir := some (opDir w), n := some (opAmount w) }) ∧
  (∀ (i : Instr) (s t : State), exec i s = .next t →
    t.opWord = some (encode i) ∧ ∃ r : HalfPair, t.result = some r ∧ t.pair = some r)

/-- 10_state.md R23: for each combination of the four inputs, as the host presents them, there is exactly one output
pair, no input faults and none leaves the block stuck. -/
def Obligations.EveryInputCombinationGivesItsResult : Prop :=
  ∀ (s : State) (d : BitVec 1) (n : ShiftAmount) (hi lo : Word),
    s.present.dir = some d → s.present.n = some n → s.present.hiIn = some hi → s.present.loIn = some lo →
    ∃ t : State, step s = .next t ∧
      t.result = some (if d = 0#1 then shiftLeft ⟨hi, lo⟩ n else shiftRight ⟨hi, lo⟩ n)

/-- 70_reset_and_hazards.md R94: one turn of the host's loop, every field of the state after it and both outputs. -/
def Obligations.StepIsOneTurnOfTheHostsLoop : Prop :=
  ∀ (s : State) (w : OpWord) (ws : List OpWord) (p : HalfPair), s.program = w :: ws → s.pair = some p →
    ∃ t : State, step s = .next t ∧
      t = { dir := some (opDir w), n := some (opAmount w), hiIn := some p.hi, loIn := some p.lo,
            program := ws, pair := some (portFunction (opDir w) (opAmount w) p), draws := s.draws } ∧
      t.hiOut = some (portFunction (opDir w) (opAmount w) p).hi ∧
      t.loOut = some (portFunction (opDir w) (opAmount w) p).lo

/-- 70_reset_and_hazards.md R94: the run of any list of words, from any state that holds it and a start pair: after `k`
steps the pair is the one the first `k` words give, the run ends after exactly as many operations as there are words,
and the empty list returns the start pair. -/
def Obligations.RunOfAnyWordsIsTheHostsLoop : Prop :=
  ∀ (ws : List OpWord) (s : State) (p : HalfPair), s.program = ws → s.pair = some p →
    (∀ k, k ≤ ws.length → ∃ t : State, Sys2Proof.core.run k s = .next t ∧
      t.program = ws.drop k ∧ t.pair = some (runWords (ws.take k) p)) ∧
    (∃ t : State, Sys2Proof.core.run ws.length s = .next t ∧ t.program = [] ∧ t.pair = some (runWords ws p)) ∧
    (ws = [] → Sys2Proof.core.run 0 s = .next s)

/-- 20_memory.md R27: an operation changes nothing inside the block, and presenting the same inputs again gives the same
outputs: with no word left, a second step changes nothing at all. That a step with no word left repeats the operation is
the model's choice (log entry 8). -/
def Obligations.RepeatingAnOperationChangesNothing : Prop :=
  ∀ s t : State, step s = .next t → t.program = [] → step t = .next t

/-- 43_properties.md R68, 10_state.md R17, R21: two states that present equal inputs give equal results, or stop alike,
whatever else they hold: an earlier pair, words to come, draws. The clause on the host's carried pair is no part of those
rules: with a word presented it is 70_reset_and_hazards.md R94, and with no word left it is the model's choice (log
entry 8). -/
def Obligations.ResultDependsOnTheInputsAlone : Prop :=
  ∀ s t : State, s.present.dir = t.present.dir → s.present.n = t.present.n →
    s.present.hiIn = t.present.hiIn → s.present.loIn = t.present.loIn →
    (∀ s' : State, step s = .next s' → ∃ t' : State, step t = .next t' ∧
      s'.hiOut = t'.hiOut ∧ s'.loOut = t'.loOut ∧ s'.pair = t'.pair) ∧
    (∀ r : Fault, step s = .fault r → step t = .fault r)

/-- 20_memory.md R29, 60_exceptions.md R89: two operations that do not feed one another give the same results in either
order: a host with no word left drives one and then the other. -/
def Obligations.IndependentOperationsRunInAnyOrder : Prop :=
  ∀ (s : State) (v w : OpWord) (p q : HalfPair), s.program = [] →
    ∃ a b c d : State,
      step ((s.driveWord v).driveOperand p) = .next a ∧ step ((a.driveWord w).driveOperand q) = .next b ∧
      step ((s.driveWord w).driveOperand q) = .next c ∧ step ((c.driveWord v).driveOperand p) = .next d ∧
      a.result = d.result ∧ b.result = c.result

/-- 60_exceptions.md R81, R82; 70_reset_and_hazards.md R95; 10_state.md R24: a step that has its four inputs answers a
next state; a step that lacks one stops because of that and of nothing else; no step is refused, and no step raises the
amount fault. -/
def Obligations.OnlyAnUndrivenInputStopsAStep : Prop :=
  (∀ s : State, Ready s = true → ∃ t : State, step s = .next t) ∧
  (∀ s : State, Ready s = false → step s = .fault .undrivenInput) ∧
  (∀ (s : State) (r : Refusal), step s ≠ .refused r) ∧
  (∀ (s : State) (n : Int), step s ≠ .fault (.amountOutOfRange n))

/-- 10_state.md R24, 70_reset_and_hazards.md R91: an operation that reads an input nothing has driven faults, whichever
of the four it is. -/
def Obligations.UndrivenInputFaults : Prop :=
  (∀ (i : Instr) (s : State), s.hiIn = none ∨ s.loIn = none → exec i s = .fault .undrivenInput) ∧
  (∀ s : State, s.program = [] → (s.dir = none ∨ s.n = none ∨ s.hiIn = none ∨ s.loIn = none) →
    step s = .fault .undrivenInput)

/-- 10_state.md R24: at reset no input is driven, no output has a value, and a step stops on the undriven input. That
the host then holds no words and no pair is the model's choice (log entry 2). -/
def Obligations.ResetDrivesNoPort : Prop :=
  State.reset.dir = none ∧ State.reset.n = none ∧ State.reset.hiIn = none ∧ State.reset.loIn = none ∧
  State.reset.hiOut = none ∧ State.reset.loOut = none ∧
  step State.reset = .fault .undrivenInput

/-- 10_state.md R24, R23: after every step, from any state, the outputs are the function of the inputs and have a value.
That the host's carried pair is then the pair they show is no part of those rules: after a step that presents a word it
is 70_reset_and_hazards.md R94, and after one with no word left it is the model's choice (log entry 8). -/
def Obligations.OutputsStayTheFunctionOfTheInputs : Prop :=
  ∀ s t : State, step s = .next t → Coherent t ∧ Taken t ∧ t.result ≠ none

/-- 10_state.md R24, R23: "at every moment" the outputs are the function of whatever the inputs are: in every state,
and so right after the host drives a word or an operand; and they have no value while any input is undriven. -/
def Obligations.OutputsFollowTheInputsAtEveryMoment : Prop :=
  (∀ s : State, Coherent s) ∧
  (∀ (s : State) (d : BitVec 1) (n : ShiftAmount) (hi lo : Word),
    s.dir = some d → s.n = some n → s.hiIn = some hi → s.loIn = some lo →
    s.hiOut = some (if d = 0#1 then shiftLeft ⟨hi, lo⟩ n else shiftRight ⟨hi, lo⟩ n).hi ∧
    s.loOut = some (if d = 0#1 then shiftLeft ⟨hi, lo⟩ n else shiftRight ⟨hi, lo⟩ n).lo) ∧
  (∀ s : State, s.dir = none ∨ s.n = none ∨ s.hiIn = none ∨ s.loIn = none → s.hiOut = none ∧ s.loOut = none) ∧
  (∀ (s : State) (w : OpWord) (p : HalfPair),
    ((s.driveWord w).driveOperand p).hiOut = some (portFunction (opDir w) (opAmount w) p).hi ∧
    ((s.driveWord w).driveOperand p).loOut = some (portFunction (opDir w) (opAmount w) p).lo)

/-- 10_state.md R24: at reset the outputs are the function of the inputs, no value of undriven inputs; and the host
carries no pair (the model's choice, log entry 2), as they show none. -/
def Obligations.OutputsAreTheFunctionOfTheInputsAtReset : Prop := Coherent State.reset ∧ Taken State.reset

/-- 60_exceptions.md R88, 70_reset_and_hazards.md R94, R95: a machine whose next operation has its inputs performs it and
is as ready again, so no run of any length from it hangs, faults or is refused. R94 ends a run when its list is
exhausted: that the machine is ready after the last word, and that a run longer than the list goes on by repeating the
operation on the inputs, is the model's choice (log entry 8). -/
def Obligations.ReadyMachineNeverStops : Prop :=
  (∀ s : State, Ready s = true → ∃ t : State, step s = .next t ∧ Ready t = true) ∧
  (∀ (k : Nat) (s : State), Ready s = true → SafeFor k s)

/-! ## Frames -/

/-- 10_state.md R19, R20, R22; 41_shift_left.md R44; 42_shift_right.md R52: frame of `lshift` and `rshift`. The operand
inputs, the host's list and the count of draws are as before. What changes: `DIR` and `N` carry the instruction's word,
and are as before where they carried it already; the outputs, which follow the inputs; and the host's carried pair, which
is what they show (log entry 1). The block has no register, flag or memory that could change. -/
def Obligations.InstructionsChangeOnlyWordResultAndPair : Prop :=
  ∀ (i : Instr) (s t : State), exec i s = .next t →
    t.hiIn = s.hiIn ∧ t.loIn = s.loIn ∧ t.program = s.program ∧ t.draws = s.draws ∧
    t.opWord = some (encode i) ∧ t.pair = t.result ∧
    (s.opWord = some (encode i) → t.dir = s.dir ∧ t.n = s.n ∧ t.hiOut = s.hiOut ∧ t.loOut = s.loOut)

/-- 70_reset_and_hazards.md R94, R95 and log entries 8 and 9: what a step leaves alone: one word at most leaves the
host's list, no draw is made, and the inputs change only as the host presents its next word and pair. -/
def Obligations.StepLeavesTheRestAlone : Prop :=
  ∀ s t : State, step s = .next t →
    t.program = s.program.tail ∧ t.draws = s.draws ∧
    (s.program = [] → t.dir = s.dir ∧ t.n = s.n ∧ t.hiIn = s.hiIn ∧ t.loIn = s.loIn) ∧
    (s.pair = none → t.hiIn = s.hiIn ∧ t.loIn = s.loIn)

/-! ## The function level and the host's duties -/

/-- 60_exceptions.md R80: an amount outside 0..31 faults with that amount under `fault` and yields some pair, with no
fault, under `any_value`, whatever the operand and the direction; the amount is tested alone. That the pair is the free
draw numbered by the count of draws, and that the count then goes up by one so that the next draw is made anew, is the
model's choice (log entries 5 and 6), not R80's words. The pair is a free value: nothing here says which it is. -/
def Obligations.AmountOutOfRangeFollowsThePolicy : Prop :=
  ∀ (p : HalfPair) (a : Int) (s : State), a < 0 ∨ 31 < a →
    shiftLeftCall .fault p a s = .fault (.amountOutOfRange a) ∧
    shiftRightCall .fault p a s = .fault (.amountOutOfRange a) ∧
    shiftLeftCall .anyValue p a s = .next (Config.freePair s.draws, { s with draws := s.draws + 1 }) ∧
    shiftRightCall .anyValue p a s = .next (Config.freePair s.draws, { s with draws := s.draws + 1 })

/-- 60_exceptions.md R80, R84: an amount in 0..31 gives the pair of the instruction rules under either policy, with
nothing drawn and no state changed; the function level and the port level agree on it. -/
def Obligations.AmountInRangeIgnoresThePolicy : Prop :=
  ∀ (policy : OorPolicy) (p : HalfPair) (n : ShiftAmount) (s : State),
    shiftLeftCall policy p n.toNat s = .next (shiftLeft p n, s) ∧
    shiftRightCall policy p n.toNat s = .next (shiftRight p n, s) ∧
    shiftLeftCall policy p n.toNat s = .next (portFunction 0#1 n p, s) ∧
    shiftRightCall policy p n.toNat s = .next (portFunction 1#1 n p, s)

/-- 70_reset_and_hazards.md R94, 60_exceptions.md R85: a run of in-range calls is the run of their words, under either
policy; under `fault` a run ends at its first out-of-range amount with that fault and no pair, whatever stands after
it. -/
def Obligations.FunctionLevelRunAgreesWithTheWords : Prop :=
  (∀ (policy : OorPolicy) (cs : List Call) (p : HalfPair) (s : State), (∀ c ∈ cs, c.wellFormed = true) →
    performCalls policy cs p s =
      .next (runWords (cs.map fun c => opWordOf (bitOfDirection c.direction) (narrowAmount c.amount)) p, s)) ∧
  (∀ (before after : List Call) (c : Call) (p : HalfPair) (s : State),
    (∀ b ∈ before, b.wellFormed = true) → c.wellFormed = false →
    performCalls .fault (before ++ c :: after) p s = .fault (.amountOutOfRange c.amount))

/-- 70_reset_and_hazards.md R92, 60_exceptions.md R81: a host that narrows an amount to the port's 5 bits gets the shift
by the amount modulo 32, which is the shift by the amount itself exactly when that is in range; an amount of 32 is no
shift at all. -/
def Obligations.NarrowedAmountShiftsModulo32 : Prop :=
  (∀ a : Int, ((narrowAmount a).toNat : Int) = a % 32) ∧
  (∀ a : Int, amountInRange a = true ↔ ((narrowAmount a).toNat : Int) = a) ∧
  (∀ (a : Int) (s : State) (p : HalfPair), s.operand = some p →
    ∃ (t u : State) (q r : HalfPair), exec (.lshift (narrowAmount a)) s = .next t ∧ t.result = some q ∧
      recompose q = recompose p <<< (a % 32).toNat ∧
      exec (.rshift (narrowAmount a)) s = .next u ∧ u.result = some r ∧
      recompose r = (recompose p).sshiftRight (a % 32).toNat) ∧
  (∀ (s : State) (p : HalfPair), s.operand = some p →
    ∃ t : State, exec (.lshift (narrowAmount 32)) s = .next t ∧ t.result = some p)

/-- 70_reset_and_hazards.md R93: for `n >= 1` the host's test on the `n + 1` top bits of `hi` tells exactly whether the
product stays in range, and then `lshift n` gives it; for a non-negative value it is `n <= max_left_shift(x)`. -/
def Obligations.HostOverflowTestIsExact : Prop :=
  ∀ (p : HalfPair) (n : ShiftAmount), 1 ≤ n.toNat →
    (topBitsEqual p.hi n = true ↔ ∀ j, j ≤ n.toNat → p.hi.getLsbD (31 - j) = p.hi.getLsbD 31) ∧
    (topBitsEqual p.hi n = true ↔
      (-(2 ^ 63) ≤ val p * 2 ^ n.toNat ∧ val p * 2 ^ n.toNat ≤ 2 ^ 63 - 1)) ∧
    (topBitsEqual p.hi n = true → val (shiftLeft p n) = val p * 2 ^ n.toNat) ∧
    (0 ≤ val p → (topBitsEqual p.hi n = true ↔ n.toNat ≤ maxLeftShift (recompose p)))
end

