-- ==== Sys2Proof/Laws/Codec.lean ====
section
/-! SUPPORT. The codec bit by bit and as a number, so that no proof unfolds the concatenation or the slices
(40_codec.md R39, R40). -/

namespace Sys2Proof.Machine

theorem recompose_getLsbD (p : HalfPair) (i : Nat) :
    (recompose p).getLsbD i = if i < 32 then p.lo.getLsbD i else p.hi.getLsbD (i - 32) :=
  BitVec.getLsbD_append

theorem recompose_msb (p : HalfPair) : (recompose p).msb = p.hi.getLsbD 31 := by
  rw [BitVec.msb_eq_getLsbD_last, recompose_getLsbD]
  rfl

theorem recompose_toNat (p : HalfPair) : (recompose p).toNat = p.hi.toNat * 2 ^ 32 + p.lo.toNat := by
  unfold recompose
  rw [BitVec.toNat_append, ← Nat.shiftLeft_add_eq_or_of_lt p.lo.isLt, Nat.shiftLeft_eq]

theorem decompose_hi_getLsbD (x : DWord) (i : Nat) :
    (decompose x).hi.getLsbD i = (decide (i < 32) && x.getLsbD (32 + i)) := BitVec.getLsbD_extractLsb' ..

theorem decompose_lo_getLsbD (x : DWord) (i : Nat) :
    (decompose x).lo.getLsbD i = (decide (i < 32) && x.getLsbD i) := by
  rw [decompose, BitVec.getLsbD_extractLsb', Nat.zero_add]

end Sys2Proof.Machine
end

