-- ==== Sys2Proof/Laws/Decode.lean ====
section
/-! SUPPORT. The fields of an operation word and the word of its fields (30_encoding.md R31 to R33): the facts every proof
about decoding starts from. -/

namespace Sys2Proof

theorem opDir_opWordOf : ∀ (d : BitVec 1) (n : ShiftAmount), opDir (opWordOf d n) = d := by decide

theorem opAmount_opWordOf : ∀ (d : BitVec 1) (n : ShiftAmount), opAmount (opWordOf d n) = n := by decide

theorem opWordOf_fields : ∀ w : OpWord, opWordOf (opDir w) (opAmount w) = w := by decide

theorem wordOfByte_byteOfWord : ∀ w : OpWord, wordOfByte (byteOfWord w) = w := by decide

theorem directionOfBit_bitOfDirection (d : Direction) : directionOfBit (bitOfDirection d) = d := by
  cases d <;> decide

/-- What the decoder answers, by the direction bit alone (R34: "a decoder needs only bit 5"). -/
theorem decode_eq_ite (w : OpWord) :
    decode w = if opDir w = 0#1 then .lshift (opAmount w) else .rshift (opAmount w) := by
  unfold decode directionOfBit
  split <;> rfl

end Sys2Proof
end

