-- ==== Sys2Proof/Laws/State.lean ====
section
/-! SUPPORT. One lemma per field of the state per update, each true by `rfl`, so that no proof unfolds a record update;
and the fields of the state at reset. -/

namespace Sys2Proof.Machine

/-! ## driveWord -/

@[simp] theorem State.driveWord_dir (s : State) (w : OpWord) : (s.driveWord w).dir = some (opDir w) := rfl
@[simp] theorem State.driveWord_n (s : State) (w : OpWord) : (s.driveWord w).n = some (opAmount w) := rfl
@[simp] theorem State.driveWord_hiIn (s : State) (w : OpWord) : (s.driveWord w).hiIn = s.hiIn := rfl
@[simp] theorem State.driveWord_loIn (s : State) (w : OpWord) : (s.driveWord w).loIn = s.loIn := rfl
@[simp] theorem State.driveWord_program (s : State) (w : OpWord) : (s.driveWord w).program = s.program := rfl
@[simp] theorem State.driveWord_pair (s : State) (w : OpWord) : (s.driveWord w).pair = s.pair := rfl
@[simp] theorem State.driveWord_draws (s : State) (w : OpWord) : (s.driveWord w).draws = s.draws := rfl

/-! ## driveOperand -/

@[simp] theorem State.driveOperand_dir (s : State) (p : HalfPair) : (s.driveOperand p).dir = s.dir := rfl
@[simp] theorem State.driveOperand_n (s : State) (p : HalfPair) : (s.driveOperand p).n = s.n := rfl
@[simp] theorem State.driveOperand_hiIn (s : State) (p : HalfPair) : (s.driveOperand p).hiIn = some p.hi := rfl
@[simp] theorem State.driveOperand_loIn (s : State) (p : HalfPair) : (s.driveOperand p).loIn = some p.lo := rfl
@[simp] theorem State.driveOperand_program (s : State) (p : HalfPair) : (s.driveOperand p).program = s.program := rfl
@[simp] theorem State.driveOperand_pair (s : State) (p : HalfPair) : (s.driveOperand p).pair = s.pair := rfl
@[simp] theorem State.driveOperand_draws (s : State) (p : HalfPair) : (s.driveOperand p).draws = s.draws := rfl

/-! ## holdPair -/

@[simp] theorem State.holdPair_dir (s : State) (p : HalfPair) : (s.holdPair p).dir = s.dir := rfl
@[simp] theorem State.holdPair_n (s : State) (p : HalfPair) : (s.holdPair p).n = s.n := rfl
@[simp] theorem State.holdPair_hiIn (s : State) (p : HalfPair) : (s.holdPair p).hiIn = s.hiIn := rfl
@[simp] theorem State.holdPair_loIn (s : State) (p : HalfPair) : (s.holdPair p).loIn = s.loIn := rfl
@[simp] theorem State.holdPair_program (s : State) (p : HalfPair) : (s.holdPair p).program = s.program := rfl
@[simp] theorem State.holdPair_pair (s : State) (p : HalfPair) : (s.holdPair p).pair = some p := rfl
@[simp] theorem State.holdPair_draws (s : State) (p : HalfPair) : (s.holdPair p).draws = s.draws := rfl

/-! ## setProgram -/

@[simp] theorem State.setProgram_dir (s : State) (ws : List OpWord) : (s.setProgram ws).dir = s.dir := rfl
@[simp] theorem State.setProgram_n (s : State) (ws : List OpWord) : (s.setProgram ws).n = s.n := rfl
@[simp] theorem State.setProgram_hiIn (s : State) (ws : List OpWord) : (s.setProgram ws).hiIn = s.hiIn := rfl
@[simp] theorem State.setProgram_loIn (s : State) (ws : List OpWord) : (s.setProgram ws).loIn = s.loIn := rfl
@[simp] theorem State.setProgram_program (s : State) (ws : List OpWord) : (s.setProgram ws).program = ws := rfl
@[simp] theorem State.setProgram_pair (s : State) (ws : List OpWord) : (s.setProgram ws).pair = s.pair := rfl
@[simp] theorem State.setProgram_draws (s : State) (ws : List OpWord) : (s.setProgram ws).draws = s.draws := rfl

/-! ## countDraw -/

@[simp] theorem State.countDraw_dir (s : State) : (s.countDraw).dir = s.dir := rfl
@[simp] theorem State.countDraw_n (s : State) : (s.countDraw).n = s.n := rfl
@[simp] theorem State.countDraw_hiIn (s : State) : (s.countDraw).hiIn = s.hiIn := rfl
@[simp] theorem State.countDraw_loIn (s : State) : (s.countDraw).loIn = s.loIn := rfl
@[simp] theorem State.countDraw_program (s : State) : (s.countDraw).program = s.program := rfl
@[simp] theorem State.countDraw_pair (s : State) : (s.countDraw).pair = s.pair := rfl
@[simp] theorem State.countDraw_draws (s : State) : (s.countDraw).draws = s.draws + 1 := rfl

/-! ## reset -/

@[simp] theorem State.reset_dir : State.reset.dir = none := rfl
@[simp] theorem State.reset_n : State.reset.n = none := rfl
@[simp] theorem State.reset_hiIn : State.reset.hiIn = none := rfl
@[simp] theorem State.reset_loIn : State.reset.loIn = none := rfl
@[simp] theorem State.reset_program : State.reset.program = [] := rfl
@[simp] theorem State.reset_pair : State.reset.pair = none := rfl
@[simp] theorem State.reset_draws : State.reset.draws = 0 := rfl

end Sys2Proof.Machine
end

