-- ==== Sys2Proof/Laws/Ops.lean ====
section
/-! SUPPORT. One lemma per shared operation that says everything it can do; later proofs cite it and do not unfold the
operation. -/

namespace Sys2Proof.Machine

/-! ## Reading the input ports -/

theorem State.operand_eq_some {s : State} {p : HalfPair} :
    s.operand = some p ↔ s.hiIn = some p.hi ∧ s.loIn = some p.lo := by
  obtain ⟨hi, lo⟩ := p
  unfold State.operand
  split <;> simp_all

theorem State.operand_eq_none {s : State} : s.operand = none ↔ s.hiIn = none ∨ s.loIn = none := by
  unfold State.operand
  cases s.hiIn <;> cases s.loIn <;> simp

theorem State.opWord_eq_some {s : State} {w : OpWord} :
    s.opWord = some w ↔ s.dir = some (opDir w) ∧ s.n = some (opAmount w) := by
  unfold State.opWord
  split
  · rename_i d n hd hn
    rw [hd, hn, Option.some.injEq, Option.some.injEq, Option.some.injEq]
    constructor
    · rintro rfl; exact ⟨(opDir_opWordOf d n).symm, (opAmount_opWordOf d n).symm⟩
    · rintro ⟨rfl, rfl⟩; exact opWordOf_fields w
  · rename_i h
    constructor
    · intro h'; cases h'
    · rintro ⟨hd, hn⟩; exact absurd hn (h _ _ hd)

theorem State.opWord_eq_none {s : State} : s.opWord = none ↔ s.dir = none ∨ s.n = none := by
  unfold State.opWord
  cases s.dir <;> cases s.n <;> simp

/-! ## The ports under the updates -/

theorem State.opWord_driveWord (s : State) (w : OpWord) : (s.driveWord w).opWord = some w :=
  State.opWord_eq_some.mpr ⟨rfl, rfl⟩

theorem State.operand_driveOperand (s : State) (p : HalfPair) : (s.driveOperand p).operand = some p :=
  State.operand_eq_some.mpr ⟨rfl, rfl⟩

/-- Driving the word the ports already carry changes nothing. -/
theorem State.driveWord_of_opWord {s : State} {w : OpWord} (h : s.opWord = some w) : s.driveWord w = s := by
  obtain ⟨hd, hn⟩ := State.opWord_eq_some.mp h
  rw [State.driveWord, ← hd, ← hn]

/-! ## Performing an operation -/

/-- Everything `operate` can do when it answers a next state. -/
theorem operate_eq_next {i : Instr} {f : HalfPair → HalfPair} {s t : State} :
    operate i f s = .next t ↔ ∃ p, s.operand = some p ∧ t = (s.driveWord (encode i)).holdPair (f p) := by
  unfold operate
  cases s.operand <;> simp [eq_comm]

/-- `operate` stops exactly on an undriven operand input. -/
theorem operate_eq_fault {i : Instr} {f : HalfPair → HalfPair} {s : State} {r : Fault} :
    operate i f s = .fault r ↔ s.operand = none ∧ r = .undrivenInput := by
  unfold operate
  cases s.operand <;> simp [eq_comm]

theorem operate_ne_refused (i : Instr) (f : HalfPair → HalfPair) (s : State) (r : Refusal) :
    operate i f s ≠ .refused r := by
  unfold operate
  cases s.operand <;> simp

/-! ## The host's half of a run -/

theorem State.present_nil {s : State} (h : s.program = []) : s.present = s := by
  unfold State.present
  rw [h]

theorem State.present_cons_some {s : State} {w : OpWord} {ws : List OpWord} {p : HalfPair}
    (h : s.program = w :: ws) (hp : s.pair = some p) :
    s.present = ((s.setProgram ws).driveWord w).driveOperand p := by
  unfold State.present
  rw [h, hp]

theorem State.present_cons_none {s : State} {w : OpWord} {ws : List OpWord}
    (h : s.program = w :: ws) (hp : s.pair = none) : s.present = (s.setProgram ws).driveWord w := by
  unfold State.present
  rw [h, hp]

/-- Everything one cycle can do. -/
theorem operationCycle_cases (ex : Instr → State → Host.Outcome State Fault Refusal) (s : State) :
    (s.present.opWord = none ∧ operationCycle ex s = .fault .undrivenInput) ∨
    ∃ w, s.present.opWord = some w ∧ operationCycle ex s = ex (decode w) s.present := by
  unfold operationCycle
  cases s.present.opWord
  · exact .inl ⟨rfl, rfl⟩
  · exact .inr ⟨_, rfl, rfl⟩

/-! ## Loading a word -/

theorem State.ensureOperand_of_pair {s : State} {p : HalfPair} (h : s.pair = some p) : s.ensureOperand = s := by
  unfold State.ensureOperand
  rw [h]

theorem State.ensureOperand_of_operand {s : State} {p : HalfPair} (h : s.operand = some p) :
    s.ensureOperand = s := by
  unfold State.ensureOperand
  rw [h]
  split
  · rename_i h'; cases h'
  · rfl

theorem State.ensureOperand_of_none {s : State} (h : s.pair = none) (h' : s.operand = none) :
    s.ensureOperand = s.holdPair Config.startPair := by
  unfold State.ensureOperand
  rw [h, h']

/-! ## The one precondition violation -/

/-- Everything an out-of-range amount can lead to. -/
theorem amountViolation_cases (policy : OorPolicy) (n : Int) (s : State) :
    (policy = .fault ∧ amountViolation policy n s = .fault (.amountOutOfRange n)) ∨
    (policy = .anyValue ∧ amountViolation policy n s = .next (Config.freePair s.draws, s.countDraw)) := by
  cases policy
  · exact .inl ⟨rfl, rfl⟩
  · exact .inr ⟨rfl, rfl⟩

end Sys2Proof.Machine
end

