-- ==== Sys2Proof/Laws/PerInstr.lean ====
section
/-! SUPPORT. Statements made per instruction, one lemma per constructor. -/

namespace Sys2Proof.Laws.FieldsOfWord

/-- The two fields of an instruction's word carry its direction and its amount (30_encoding.md R31 to R33). -/
def Statement (i : Instr) : Prop :=
  directionOfBit (opDir (encode i)) = i.direction ∧ opAmount (encode i) = i.amount

theorem lshift (n : ShiftAmount) : Statement (.lshift n) :=
  ⟨by rw [encode, opDir_opWordOf, directionOfBit_bitOfDirection], opAmount_opWordOf _ _⟩

theorem rshift (n : ShiftAmount) : Statement (.rshift n) :=
  ⟨by rw [encode, opDir_opWordOf, directionOfBit_bitOfDirection], opAmount_opWordOf _ _⟩

end Sys2Proof.Laws.FieldsOfWord
end

