-- ==== Sys2Proof/Laws/Primitives.lean ====
section
/-! SUPPORT. The 32-bit primitives of 00_scope.md R10 as the bit-vector shifts of the library, one lemma each, so that
no proof unfolds their arithmetic. -/

namespace Sys2Proof.Machine

theorem u32_natCast (m : Nat) : u32 (m : Int) = BitVec.ofNat 32 m := BitVec.ofInt_natCast ..

theorem shl32_eq_shiftLeft (v : Word) (k : Nat) : shl32 v k = v <<< k := by
  apply BitVec.eq_of_toNat_eq
  rw [shl32, u32_natCast, BitVec.toNat_ofNat, BitVec.toNat_shiftLeft, Nat.shiftLeft_eq]

theorem lsr32_eq_ushiftRight (v : Word) (k : Nat) : lsr32 v k = v >>> k := by
  apply BitVec.eq_of_toNat_eq
  rw [lsr32, u32_natCast, BitVec.toNat_ofNat, BitVec.toNat_ushiftRight, Nat.shiftRight_eq_div_pow]
  exact Nat.mod_eq_of_lt (lt_of_le_of_lt (Nat.div_le_self ..) v.isLt)

theorem asr32_eq_sshiftRight (v : Word) (k : Nat) : asr32 v k = v.sshiftRight k := by
  rw [asr32, u32, BitVec.sshiftRight, Int.shiftRight_eq_div_pow]

end Sys2Proof.Machine
end

