-- ==== Sys2Proof/Laws/Shift.lean ====
section
/-! SUPPORT. The two functions of the instruction rules by their two branches, on the library's shifts
(41_shift_left.md R44, 42_shift_right.md R52). -/

namespace Sys2Proof.Machine

theorem shiftLeft_zero (p : HalfPair) : shiftLeft p 0#5 = p := if_pos rfl

theorem shiftLeft_of_ne_zero (p : HalfPair) {n : ShiftAmount} (h : n ≠ 0#5) :
    shiftLeft p n = ⟨p.hi <<< n.toNat ||| p.lo >>> (32 - n.toNat), p.lo <<< n.toNat⟩ := by
  rw [shiftLeft, if_neg h, carryTerm, shl32_eq_shiftLeft, shl32_eq_shiftLeft, lsr32_eq_ushiftRight]

theorem shiftRight_zero (p : HalfPair) : shiftRight p 0#5 = p := if_pos rfl

theorem shiftRight_of_ne_zero (p : HalfPair) {n : ShiftAmount} (h : n ≠ 0#5) :
    shiftRight p n = ⟨p.hi.sshiftRight n.toNat, p.hi <<< (32 - n.toNat) ||| p.lo >>> n.toNat⟩ := by
  rw [shiftRight, if_neg h, borrowTerm, shl32_eq_shiftLeft, asr32_eq_sshiftRight, lsr32_eq_ushiftRight]

/-- An amount that is not 0 lies in 1..31, so both shifts of a rule, by `n` and by `32 - n`, do too (R10). -/
theorem amount_bounds {n : ShiftAmount} (h : n ≠ 0#5) : 1 ≤ n.toNat ∧ n.toNat ≤ 31 := by
  refine ⟨?_, by have := n.isLt; omega⟩
  rcases Nat.eq_zero_or_pos n.toNat with h0 | h0
  · exact absurd (BitVec.eq_of_toNat_eq h0) h
  · exact h0

end Sys2Proof.Machine
end

