-- ==== Sys2Proof/Laws/Step.lean ====
section
/-! SUPPORT. What the output ports show, and what an instruction and a step can do, each said once. -/

namespace Sys2Proof.Machine

/-! ## The output ports -/

/-- When the outputs have a value, and which (10_state.md R23, R24). -/
theorem State.result_eq_some {s : State} {r : HalfPair} :
    s.result = some r ↔ ∃ w p, s.opWord = some w ∧ s.operand = some p ∧
      r = portFunction (opDir w) (opAmount w) p := by
  constructor
  · intro h
    unfold State.result at h
    split at h
    · rename_i d n p hd hn hp
      exact ⟨opWordOf d n, p, State.opWord_eq_some.mpr ⟨by rw [hd, opDir_opWordOf], by rw [hn, opAmount_opWordOf]⟩, hp,
        by rw [opDir_opWordOf, opAmount_opWordOf]; exact (Option.some.inj h).symm⟩
    · cases h
  · rintro ⟨w, p, hw, hp, rfl⟩
    obtain ⟨hd, hn⟩ := State.opWord_eq_some.mp hw
    unfold State.result
    rw [hd, hn, hp]

theorem State.hiOut_of_result {s : State} {r : HalfPair} (h : s.result = some r) : s.hiOut = some r.hi := by
  rw [State.hiOut, h]; rfl

theorem State.loOut_of_result {s : State} {r : HalfPair} (h : s.result = some r) : s.loOut = some r.lo := by
  rw [State.loOut, h]; rfl

theorem State.xOut_of_result {s : State} {r : HalfPair} (h : s.result = some r) : s.xOut = some (recompose r) := by
  rw [State.xOut, h]; rfl

/-- The carried pair is no input, so the outputs do not depend on it. -/
theorem State.result_holdPair (s : State) (p : HalfPair) : (s.holdPair p).result = s.result := rfl

/-- With a word and an operand driven, the outputs show the word's function of the operand. -/
theorem State.result_driveWord {s : State} {p : HalfPair} (w : OpWord) (h : s.operand = some p) :
    (s.driveWord w).result = some (portFunction (opDir w) (opAmount w) p) :=
  State.result_eq_some.mpr ⟨w, p, State.opWord_driveWord s w, h, rfl⟩

/-! ## An instruction -/

theorem portFunction_encode_lshift (n : ShiftAmount) (p : HalfPair) :
    portFunction (opDir (encode (.lshift n))) (opAmount (encode (.lshift n))) p = shiftLeft p n := by
  rw [encode, opDir_opWordOf, opAmount_opWordOf]; rfl

theorem portFunction_encode_rshift (n : ShiftAmount) (p : HalfPair) :
    portFunction (opDir (encode (.rshift n))) (opAmount (encode (.rshift n))) p = shiftRight p n := by
  rw [encode, opDir_opWordOf, opAmount_opWordOf]; rfl

/-- Every instruction performs the function of its word (R23). -/
theorem exec_eq_operate (i : Instr) (s : State) :
    exec i s = operate i (portFunction (opDir (encode i)) (opAmount (encode i))) s := by
  cases i with
  | lshift n => rw [show portFunction _ _ = _ from funext (portFunction_encode_lshift n)]; rfl
  | rshift n => rw [show portFunction _ _ = _ from funext (portFunction_encode_rshift n)]; rfl

/-- Everything an instruction can do when it answers a next state. -/
theorem exec_eq_next {i : Instr} {s t : State} :
    exec i s = .next t ↔ ∃ p, s.operand = some p ∧
      t = (s.driveWord (encode i)).holdPair (portFunction (opDir (encode i)) (opAmount (encode i)) p) := by
  rw [exec_eq_operate, operate_eq_next]

/-- Everything an instruction can do when it faults. -/
theorem exec_eq_fault {i : Instr} {s : State} {r : Fault} :
    exec i s = .fault r ↔ s.operand = none ∧ r = .undrivenInput := by
  rw [exec_eq_operate, operate_eq_fault]

theorem exec_ne_refused (i : Instr) (s : State) (r : Refusal) : exec i s ≠ .refused r := by
  rw [exec_eq_operate]
  exact operate_ne_refused _ _ _ _

/-- An instruction that completes leaves its function's pair on the outputs. -/
theorem result_of_exec {i : Instr} {s : State} {p : HalfPair} (q : HalfPair) (h : s.operand = some p) :
    ((s.driveWord (encode i)).holdPair q).result =
      some (portFunction (opDir (encode i)) (opAmount (encode i)) p) :=
  State.result_driveWord (encode i) h

/-! ## A step -/

/-- Encoding what a word decodes to gives the word. -/
theorem encode_of_decode : ∀ w : OpWord, encode (decode w) = w := by decide

/-- Everything a step can do when it answers a next state. -/
theorem step_eq_next {s t : State} :
    step s = .next t ↔ ∃ w p, s.present.opWord = some w ∧ s.present.operand = some p ∧
      t = s.present.holdPair (portFunction (opDir w) (opAmount w) p) := by
  have key : ∀ w, s.present.opWord = some w → (step s = .next t ↔ ∃ p, s.present.operand = some p ∧
      t = s.present.holdPair (portFunction (opDir w) (opAmount w) p)) := by
    intro w hw
    have hs : step s = exec (decode w) s.present := by unfold step operationCycle; rw [hw]
    rw [hs, exec_eq_next, encode_of_decode, State.driveWord_of_opWord hw]
  constructor
  · intro h
    rcases operationCycle_cases exec s with ⟨_, h'⟩ | ⟨w, hw, _⟩
    · rw [step, h'] at h; cases h
    · obtain ⟨p, hp, ht⟩ := (key w hw).mp h
      exact ⟨w, p, hw, hp, ht⟩
  · rintro ⟨w, p, hw, hp, ht⟩
    exact (key w hw).mpr ⟨p, hp, ht⟩

/-- Everything a step can do when it faults. -/
theorem step_eq_fault {s : State} {r : Fault} :
    step s = .fault r ↔ (s.present.opWord = none ∨ s.present.operand = none) ∧ r = .undrivenInput := by
  rcases operationCycle_cases exec s with ⟨hw, h⟩ | ⟨w, hw, h⟩
  · rw [step, h, hw]; simp [eq_comm]
  · rw [step, h, exec_eq_fault, hw]; simp

/-! ## Runs of steps -/

theorem core_run_zero (s : State) : Sys2Proof.core.run 0 s = .next s := rfl

theorem core_run_of_next {s t : State} (k : Nat) (h : step s = .next t) :
    Sys2Proof.core.run (k + 1) s = Sys2Proof.core.run k t := by
  refine (Host.Core.run.eq_2 Sys2Proof.core s k).trans ?_
  rw [show Sys2Proof.core.step s = .next t from h]

end Sys2Proof.Machine
end

