-- ==== Sys2Proof/Tests/Slice0.lean ====
section
/-! SUPPORT. Tests: expected results from spec/95_test_vectors.md (its vector ids stand in the comments), and one witness
per obligation that has hypotheses. -/

namespace Sys2Proof.Tests

open Sys2Proof.Machine

/-! ## Small states -/

/-- One word to present and the pair to present it with. -/
def loaded (w : OpWord) (hi lo : Word) : State := (State.reset.setProgram [w]).holdPair ⟨hi, lo⟩

/-- All four inputs driven, no word left. -/
def driven (w : OpWord) (hi lo : Word) : State := (State.reset.driveWord w).driveOperand ⟨hi, lo⟩

/-- The output pair after one step that presents `w` with `(hi, lo)`. -/
def after (w : OpWord) (hi lo : Word) : Option HalfPair :=
  match step (loaded w hi lo) with
  | .next t => t.result
  | _ => none

/-- The value of an input-driven pair. -/
def valueOf (hi lo : Word) : Int := val ⟨hi, lo⟩

/-! ## Well-formedness -/

/-- R16, R80: 32, 63 and -1 are refused, 0 and 31 are not. -/
theorem test_call_wellFormed :
    (Call.mk .left 32).wellFormed = false ∧ (Call.mk .right 63).wellFormed = false ∧
    (Call.mk .left (-1)).wellFormed = false ∧ (Call.mk .left 0).wellFormed = true ∧
    (Call.mk .right 31).wellFormed = true := by decide

/-- R35: no instruction is ill-formed, so the check has no term to refuse; it holds at the ends of the range. -/
theorem test_instr_wellFormed :
    (Instr.lshift 0#5).wellFormed = true ∧ (Instr.lshift 31#5).wellFormed = true ∧
    (Instr.rshift 0#5).wellFormed = true ∧ (Instr.rshift 31#5).wellFormed = true := by decide

/-! ## Decoding and encoding, words written out bit by bit (VE1 to VE10) -/

theorem test_decode_lshift :
    decode 0b000000#6 = .lshift 0#5 ∧ decode 0b000001#6 = .lshift 1#5 ∧ decode 0b000010#6 = .lshift 2#5 ∧
    decode 0b010000#6 = .lshift 16#5 ∧ decode 0b011111#6 = .lshift 31#5 := by decide

theorem test_decode_rshift :
    decode 0b100000#6 = .rshift 0#5 ∧ decode 0b100001#6 = .rshift 1#5 ∧ decode 0b100010#6 = .rshift 2#5 ∧
    decode 0b110000#6 = .rshift 16#5 ∧ decode 0b111111#6 = .rshift 31#5 := by decide

theorem test_encode :
    encode (.lshift 31#5) = 0x1F#6 ∧ encode (.rshift 0#5) = 0x20#6 ∧ encode (.rshift 31#5) = 0x3F#6 := by decide

/-- The image of program P2: `1F 09 3F 29`. -/
theorem test_encodeImage_P2 :
    encodeImage [.lshift 31#5, .lshift 9#5, .rshift 31#5, .rshift 9#5] = [0x1F#8, 0x09#8, 0x3F#8, 0x29#8] := by decide

theorem test_decodeTableWord :
    decodeTableWord 8 0x02 = some (.lshift 2#5) ∧ decodeTableWord 8 0x31 = some (.rshift 17#5) ∧
    decodeTableWord 6 0x3F = some (.rshift 31#5) := by decide

theorem test_decodeBytes_empty : (decodeBytes []).toOption = none := by decide

/-! ## Assembler (section 6 of the vectors) -/

theorem test_assembleLine_accepts :
    (assembleLine ['r', 's', 'h', 'i', 'f', 't', ' ', '1', '7', ' ', '#', ' ', 'x']).toOption = some (some 0x31#6) ∧
    (assembleLine ['n', 'o', 'p']).toOption = some (some 0x00#6) ∧
    (assembleLine [' ', '#', 'n', 'o', 'p']).toOption = some none := by decide

theorem test_assembleLine_refuses :
    (assembleLine ['l', 's', 'h', 'i', 'f', 't', ' ', '3', '2']).toOption = none ∧
    (assembleLine ['r', 's', 'h', 'i', 'f', 't', ' ', '3', '2']).toOption = none ∧
    (assembleLine ['l', 's', 'h', 'i', 'f', 't', ' ', '-', '1']).toOption = none := by decide

theorem test_disassemble_noop :
    disassemble 0x00#6 = ['l', 's', 'h', 'i', 'f', 't', ' ', '0'] ∧
    disassemble 0x20#6 = ['r', 's', 'h', 'i', 'f', 't', ' ', '0'] := by decide

/-! ## Codec (VC4, VC6, VC7, VC13) -/

theorem test_codec :
    decompose (BitVec.ofInt 64 (-1)) = ⟨0xFFFFFFFF#32, 0xFFFFFFFF#32⟩ ∧
    (recompose ⟨0x00000000#32, 0x80000000#32⟩).toInt = 2147483648 ∧
    (recompose ⟨0xFFFFFFFF#32, 0x80000000#32⟩).toInt = -2147483648 ∧
    decompose 81985529216486895#64 = ⟨0x01234567#32, 0x89ABCDEF#32⟩ := by decide

/-! ## lshift -/

/-- VS2, VL6, VL8, VL15, VL27, VL16, VL23: crossing bits, the largest amount, the `n = 0` branch, the logical carry. -/
theorem test_lshift_vectors :
    after 0x02#6 0x00000000#32 0x00000005#32 = some ⟨0x00000000#32, 0x00000014#32⟩ ∧
    after 0x01#6 0x00000000#32 0x80000000#32 = some ⟨0x00000001#32, 0x00000000#32⟩ ∧
    after 0x1F#6 0x00000000#32 0xFFFFFFFF#32 = some ⟨0x7FFFFFFF#32, 0x80000000#32⟩ ∧
    after 0x00#6 0x01234567#32 0x89ABCDEF#32 = some ⟨0x01234567#32, 0x89ABCDEF#32⟩ ∧
    after 0x00#6 0x80000000#32 0x00000001#32 = some ⟨0x80000000#32, 0x00000001#32⟩ ∧
    after 0x04#6 0x01234567#32 0x89ABCDEF#32 = some ⟨0x12345678#32, 0x9ABCDEF0#32⟩ ∧
    after 0x0C#6 0x00000000#32 0xDEADBEEF#32 = some ⟨0x00000DEA#32, 0xDBEEF000#32⟩ := by decide

/-- VL14, VL18, VL20, VL21: overflow and negative operands. -/
theorem test_lshift_overflow_vectors :
    after 0x01#6 0x7FFFFFFF#32 0xFFFFFFFF#32 = some ⟨0xFFFFFFFF#32, 0xFFFFFFFE#32⟩ ∧
    after 0x1F#6 0x01234567#32 0x89ABCDEF#32 = some ⟨0xC4D5E6F7#32, 0x80000000#32⟩ ∧
    after 0x1F#6 0xFFFFFFFF#32 0xFFFFFFFF#32 = some ⟨0xFFFFFFFF#32, 0x80000000#32⟩ ∧
    after 0x01#6 0x80000000#32 0x00000000#32 = some ⟨0x00000000#32, 0x00000000#32⟩ := by decide

/-! ## rshift -/

/-- VS3, VR6, VR11, VR13, VR14, VR16, VR17: crossing bits, the largest amount, the `n = 0` branch, the logical low half. -/
theorem test_rshift_vectors :
    after 0x22#6 0x00000000#32 0x00000014#32 = some ⟨0x00000000#32, 0x00000005#32⟩ ∧
    after 0x21#6 0x00000001#32 0x00000000#32 = some ⟨0x00000000#32, 0x80000000#32⟩ ∧
    after 0x3F#6 0x7FFFFFFF#32 0xFFFFFFFF#32 = some ⟨0x00000000#32, 0xFFFFFFFF#32⟩ ∧
    after 0x20#6 0x01234567#32 0x89ABCDEF#32 = some ⟨0x01234567#32, 0x89ABCDEF#32⟩ ∧
    after 0x24#6 0x01234567#32 0x89ABCDEF#32 = some ⟨0x00123456#32, 0x789ABCDE#32⟩ ∧
    after 0x3F#6 0x01234567#32 0x89ABCDEF#32 = some ⟨0x00000000#32, 0x02468ACF#32⟩ ∧
    after 0x3F#6 0x00000000#32 0xFFFFFFFF#32 = some ⟨0x00000000#32, 0x00000001#32⟩ := by decide

/-- VR21, VR22, VR24, VR26, VR27, VR30: negative operands. -/
theorem test_rshift_negative_vectors :
    after 0x21#6 0x80000000#32 0x00000000#32 = some ⟨0xC0000000#32, 0x00000000#32⟩ ∧
    after 0x3F#6 0x80000000#32 0x00000000#32 = some ⟨0xFFFFFFFF#32, 0x00000000#32⟩ ∧
    after 0x21#6 0xFFFFFFFE#32 0x00000001#32 = some ⟨0xFFFFFFFF#32, 0x00000000#32⟩ ∧
    after 0x21#6 0xFFFFFFFF#32 0xFFFFFFFB#32 = some ⟨0xFFFFFFFF#32, 0xFFFFFFFD#32⟩ ∧
    after 0x30#6 0x80000000#32 0xFFFFFFFF#32 = some ⟨0xFFFF8000#32, 0x0000FFFF#32⟩ ∧
    after 0x20#6 0x80000000#32 0x00000001#32 = some ⟨0x80000000#32, 0x00000001#32⟩ := by decide

/-! ## Runs, fetch and the function level -/

/-- Programs P3 and P10 start B. -/
theorem test_runWords :
    runWords [0x08#6, 0x3F#6, 0x39#6] ⟨0x01234567#32, 0x89ABCDEF#32⟩ = ⟨0x00000000#32, 0x00000023#32⟩ ∧
    runWords [0x3F#6, 0x21#6] ⟨0x81234567#32, 0x89ABCDEF#32⟩ = ⟨0xFFFFFFFF#32, 0x81234567#32⟩ := by decide

/-- R24: the outputs follow the inputs as soon as they are driven, with no step (VL16), and have no value while the
operand is undriven. -/
theorem test_outputs_follow_inputs :
    (driven 0x04#6 0x01234567#32 0x89ABCDEF#32).hiOut = some 0x12345678#32 ∧
    (driven 0x04#6 0x01234567#32 0x89ABCDEF#32).loOut = some 0x9ABCDEF0#32 ∧
    (State.reset.driveWord 0x04#6).hiOut = none := by decide

/-- The word placed by `withFetchWord` is the one the next step presents (0x3F is `rshift 31`, VE10), and that step
completes from reset; an operand the host drove itself is left as it is. -/
theorem test_withFetchWord :
    (State.reset.withFetchWord 8 0x3F).present.opWord = some 0x3F#6 ∧
    (∃ t, step (State.reset.withFetchWord 8 0x3F) = .next t) ∧
    ((driven 0x00#6 1#32 2#32).withFetchWord 8 0x3F).present.operand = some ⟨1#32, 2#32⟩ := ⟨by decide, ⟨_, rfl⟩, by decide⟩

/-- VO1, VO3: under `fault` an amount of 32 or -1 faults with that amount. -/
theorem test_function_level_fault :
    (∃ n, shiftLeftCall .fault ⟨0#32, 1#32⟩ 32 State.reset = .fault (.amountOutOfRange n) ∧ n = 32) ∧
    (∃ n, shiftLeftCall .fault ⟨0#32, 5#32⟩ (-1) State.reset = .fault (.amountOutOfRange n) ∧ n = -1) :=
  ⟨⟨32, rfl, rfl⟩, ⟨-1, rfl, rfl⟩⟩

/-! ## Witnesses: a state and operands that meet the hypotheses of each obligation that has any -/

theorem test_witness_DecodeAndEncodeFollowTheOpcodeMap :
    0x00#6 &&& 0x20#6 = 0x00#6 ∧ 0x1F#6 &&& 0x20#6 = 0x00#6 ∧ 0x20#6 &&& 0x20#6 = 0x20#6 ∧
    0x3F#6 &&& 0x20#6 = 0x20#6 ∧ (0x1F#6).toNat ≤ 0x1F ∧ 0x20 ≤ (0x20#6).toNat := by decide

theorem test_witness_EveryOperationWordIsLegal :
    amountInRange 32 = false ∧ amountInRange (-1) = false ∧
    (driven 0x20#6 0x80000000#32 1#32).operand = some ⟨0x80000000#32, 1#32⟩ := by decide

theorem test_witness_ProgramImageReadsBack :
    (∀ b ∈ [0x00#8, 0x3F#8], b.toNat < 64) ∧ 0x02#8 &&& 0x3F#8 = 0xC2#8 &&& 0x3F#8 := by decide

theorem test_witness_AssemblerReturnsTheDisassembledWord :
    decimal ['3', '2'] = some 32 ∧ amountInRange 32 = false ∧ decimal ['-', '1'] = some (-1) ∧
    amountInRange (-1) = false ∧ decimal ['3', '1'] = some 31 ∧ amountInRange 31 = true ∧
    decimal ['0'] = some 0 ∧ amountInRange 0 = true := by decide

theorem test_witness_PrimitivesFollowTheirArithmetic : (0 : Nat) ≤ 31 ∧ (31 : Nat) ≤ 31 := by decide

theorem test_witness_HalvesAreTheBitsOfTheWideView :
    (driven 0x01#6 1#32 2#32).operand = some ⟨1#32, 2#32⟩ ∧
    (driven 0x01#6 1#32 2#32).result = some ⟨2#32, 4#32⟩ := by decide

theorem test_witness_LshiftCompletesWithItsPair :
    (driven 0x01#6 0x7FFFFFFF#32 1#32).hiIn = some 0x7FFFFFFF#32 ∧
    (driven 0x01#6 0x7FFFFFFF#32 1#32).loIn = some 1#32 := by decide

theorem test_witness_LshiftByThirtyOne :
    (driven 0x1F#6 1#32 1#32).hiIn = some 1#32 ∧ (driven 0x1F#6 1#32 1#32).loIn = some 1#32 := by decide

theorem test_witness_LshiftHalvesAreConcatenations : 1 ≤ (1#5).toNat ∧ 1 ≤ (31#5).toNat := by decide

/-- Both the exact product (VL20, negative) and an overflow (VL14) occur. -/
theorem test_witness_LshiftIsTheWideLeftShift :
    (driven 0x1F#6 0xFFFFFFFF#32 0xFFFFFFFF#32).operand = some ⟨0xFFFFFFFF#32, 0xFFFFFFFF#32⟩ ∧
    -(2 ^ 63) ≤ valueOf 0xFFFFFFFF#32 0xFFFFFFFF#32 * 2 ^ 31 ∧
    valueOf 0xFFFFFFFF#32 0xFFFFFFFF#32 * 2 ^ 31 ≤ 2 ^ 63 - 1 := by decide

theorem test_witness_LshiftOverflowIsSilent :
    (driven 0x01#6 0x40000000#32 0#32).operand = some ⟨0x40000000#32, 0#32⟩ ∧
    2 ^ 63 - 1 < valueOf 0x40000000#32 0#32 * 2 ^ (1#5).toNat ∧
    valueOf 0x80000000#32 0#32 * 2 ^ (1#5).toNat < -(2 ^ 63) := by decide

theorem test_witness_RshiftCompletesWithItsPair :
    (driven 0x21#6 0x80000000#32 1#32).hiIn = some 0x80000000#32 ∧
    (driven 0x21#6 0x80000000#32 1#32).loIn = some 1#32 := by decide

theorem test_witness_RshiftCornerCases :
    (driven 0x3F#6 0x80000000#32 0#32).hiIn = some 0x80000000#32 ∧
    (driven 0x3F#6 0x80000000#32 0#32).loIn = some 0#32 := by decide

theorem test_witness_RshiftHalvesAreConcatenations : 1 ≤ (1#5).toNat ∧ 1 ≤ (31#5).toNat := by decide

theorem test_witness_RshiftIsTheWideArithmeticShift :
    (driven 0x21#6 0xFFFFFFFF#32 0xFFFFFFFB#32).operand = some ⟨0xFFFFFFFF#32, 0xFFFFFFFB#32⟩ := by decide

theorem test_witness_RightShiftIsFloorDivision :
    0 ≤ (0x7FFFFFFFFFFFFFFF#64).toInt ∧ 1 ≤ (31#5).toNat := by decide

theorem test_witness_LeftShiftIsTheProductWithinTheBound :
    0 ≤ (0x0000000100000000#64).toInt ∧ 1 ≤ (30#5).toNat ∧
    (30#5).toNat ≤ maxLeftShift 0x0000000100000000#64 := by decide

theorem test_witness_MaxLeftShiftIsTheLargestAmount :
    0 ≤ (0#64).toInt ∧ 0 ≤ (0x7FFFFFFFFFFFFFFF#64).toInt ∧ 0x7FFFFFFFFFFFFFFF#64 ≠ 0#64 ∧
    63 - clz64 1#64 < 1 := by decide

theorem test_witness_ZeroPairIsFixedByEveryOperation :
    (driven 0x3F#6 0#32 0#32).operand = some ⟨0#32, 0#32⟩ := by decide

theorem test_witness_ShiftsOfOneDirectionCompose :
    64 ≤ ([31#5, 31#5, 2#5].map BitVec.toNat).sum ∧ 63 ≤ ([31#5, 31#5, 1#5].map BitVec.toNat).sum ∧
    [31#5, 9#5].Perm [9#5, 31#5] := by decide

theorem test_witness_LeftThenRightAndRightThenLeft :
    0 ≤ (5#64).toInt ∧ (2#5).toNat ≤ maxLeftShift 5#64 := by decide

theorem test_witness_StepRunsTheDecodedInstruction :
    (loaded 0x02#6 0#32 5#32).present.opWord = some 0x02#6 ∧
    (loaded 0x02#6 0#32 5#32).program = [0x02#6] ∧ (loaded 0x02#6 0#32 5#32).pair = some ⟨0#32, 5#32⟩ ∧
    (driven 0x02#6 0#32 5#32).program = [] ∧
    (State.reset.setProgram [0x02#6]).program = [0x02#6] ∧ (State.reset.setProgram [0x02#6]).pair = none ∧
    (∃ t, exec (.lshift 2#5) (driven 0x02#6 0#32 5#32) = .next t) := ⟨rfl, rfl, rfl, rfl, rfl, rfl, _, rfl⟩

theorem test_witness_EveryInputCombinationGivesItsResult :
    (driven 0x3F#6 1#32 2#32).present.dir = some 1#1 ∧ (driven 0x3F#6 1#32 2#32).present.n = some 31#5 ∧
    (driven 0x3F#6 1#32 2#32).present.hiIn = some 1#32 ∧ (driven 0x3F#6 1#32 2#32).present.loIn = some 2#32 ∧
    (loaded 0x00#6 1#32 2#32).present.dir = some 0#1 ∧ (loaded 0x00#6 1#32 2#32).present.n = some 0#5 ∧
    (loaded 0x00#6 1#32 2#32).present.hiIn = some 1#32 ∧ (loaded 0x00#6 1#32 2#32).present.loIn = some 2#32 := by
  decide

theorem test_witness_StepIsOneTurnOfTheHostsLoop :
    (loaded 0x22#6 0#32 20#32).program = 0x22#6 :: [] ∧ (loaded 0x22#6 0#32 20#32).pair = some ⟨0#32, 20#32⟩ := by decide

theorem test_witness_RunOfAnyWordsIsTheHostsLoop :
    ((loaded 0x02#6 0#32 5#32).setProgram [0x02#6, 0x22#6]).program = [0x02#6, 0x22#6] ∧
    ((loaded 0x02#6 0#32 5#32).setProgram [0x02#6, 0x22#6]).pair = some ⟨0#32, 5#32⟩ ∧
    ((loaded 0x02#6 0#32 5#32).setProgram []).program = [] := by decide

theorem test_witness_RepeatingAnOperationChangesNothing :
    ∃ t, step (loaded 0x02#6 0#32 5#32) = .next t ∧ t.program = [] := ⟨_, rfl, rfl⟩

/-- Two states that present equal inputs and differ otherwise, one pair that steps and one that stops. -/
theorem test_witness_ResultDependsOnTheInputsAlone :
    ((driven 0x02#6 0#32 5#32).present.operand = (loaded 0x02#6 0#32 5#32).present.operand ∧
      (driven 0x02#6 0#32 5#32).present.opWord = (loaded 0x02#6 0#32 5#32).present.opWord ∧
      driven 0x02#6 0#32 5#32 ≠ loaded 0x02#6 0#32 5#32) ∧
    (∃ t, step (driven 0x02#6 0#32 5#32) = .next t) ∧
    step State.reset = .fault .undrivenInput :=
  ⟨by decide, ⟨_, rfl⟩, rfl⟩

theorem test_witness_IndependentOperationsRunInAnyOrder : State.reset.program = [] := by decide

theorem test_witness_OnlyAnUndrivenInputStopsAStep :
    Ready (driven 0x02#6 0#32 5#32) = true ∧ Ready (loaded 0x02#6 0#32 5#32) = true ∧
    Ready State.reset = false ∧ Ready (State.reset.setProgram [0x02#6]) = false := by decide

theorem test_witness_UndrivenInputFaults :
    State.reset.program = [] ∧ State.reset.hiIn = none ∧ (State.reset.driveOperand ⟨1#32, 2#32⟩).dir = none := by decide

theorem test_witness_OutputsStayTheFunctionOfTheInputs :
    ∃ t, step (loaded 0x3F#6 0x80000000#32 0#32) = .next t := ⟨_, rfl⟩

theorem test_witness_OutputsFollowTheInputsAtEveryMoment :
    (driven 0x3F#6 1#32 2#32).dir = some 1#1 ∧ (driven 0x3F#6 1#32 2#32).n = some 31#5 ∧
    (driven 0x3F#6 1#32 2#32).hiIn = some 1#32 ∧ (driven 0x3F#6 1#32 2#32).loIn = some 2#32 ∧
    (State.reset.driveWord 0x3F#6).hiIn = none ∧ (State.reset.driveOperand ⟨1#32, 2#32⟩).dir = none := by decide

theorem test_witness_ReadyMachineNeverStops : Ready (loaded 0x3F#6 1#32 0#32) = true := by decide

theorem test_witness_InstructionsChangeOnlyWordResultAndPair :
    (∃ t, exec (.lshift 31#5) (driven 0x1F#6 1#32 2#32) = .next t) ∧
    (∃ t, exec (.rshift 31#5) (driven 0x00#6 1#32 2#32) = .next t) ∧
    (driven 0x1F#6 1#32 2#32).opWord = some (encode (.lshift 31#5)) := ⟨⟨_, rfl⟩, ⟨_, rfl⟩, by decide⟩

theorem test_witness_StepLeavesTheRestAlone :
    (∃ t, step (driven 0x02#6 0#32 5#32) = .next t) ∧ (driven 0x02#6 0#32 5#32).program = [] ∧
    (driven 0x02#6 0#32 5#32).pair = none := ⟨⟨_, rfl⟩, rfl, rfl⟩

theorem test_witness_AmountOutOfRangeFollowsThePolicy :
    ((-1 : Int) < 0 ∨ 31 < (-1 : Int)) ∧ ((32 : Int) < 0 ∨ 31 < (32 : Int)) := by decide

theorem test_witness_FunctionLevelRunAgreesWithTheWords :
    (∀ c ∈ [Call.mk .left 2, Call.mk .right 31], c.wellFormed = true) ∧ (Call.mk .left 32).wellFormed = false := by
  decide

theorem test_witness_NarrowedAmountShiftsModulo32 :
    (driven 0x00#6 1#32 2#32).operand = some ⟨1#32, 2#32⟩ := by decide

/-- A value for which the test passes, one for which it does not, and a non-negative value. -/
theorem test_witness_HostOverflowTestIsExact :
    1 ≤ (1#5).toNat ∧ topBitsEqual 0x3FFFFFFF#32 1#5 = true ∧ topBitsEqual 0x40000000#32 1#5 = false ∧
    topBitsEqual 0xFFFFFFFF#32 31#5 = true ∧ 0 ≤ valueOf 0x3FFFFFFF#32 0#32 := by decide

end Sys2Proof.Tests
end

section
/-! Proof of the primitives' arithmetic (00_scope.md R10). Each primitive is one of the library's shifts
(`shl32_eq_shiftLeft`, `lsr32_eq_ushiftRight`, `asr32_eq_sshiftRight`), so its number and its bits are the shift's. -/

namespace Sys2Proof.Machine

theorem toNat_shl32 (v : Word) (k : Nat) : (shl32 v k).toNat = v.toNat * 2 ^ k % 2 ^ 32 := by
  rw [shl32_eq_shiftLeft, BitVec.toNat_shiftLeft, Nat.shiftLeft_eq]

theorem toNat_lsr32 (v : Word) (k : Nat) : (lsr32 v k).toNat = v.toNat / 2 ^ k := by
  rw [lsr32_eq_ushiftRight, BitVec.toNat_ushiftRight, Nat.shiftRight_eq_div_pow]

theorem toInt_asr32 (v : Word) (k : Nat) : (asr32 v k).toInt = v.toInt / (2 : Int) ^ k := by
  rw [asr32_eq_sshiftRight, BitVec.toInt_sshiftRight, Int.shiftRight_eq_div_pow, Nat.cast_pow, Nat.cast_ofNat]

/-- Zeros enter at bit 0. -/
theorem getLsbD_shl32 (v : Word) (k : Nat) {j : Nat} (hj : j < 32) :
    (shl32 v k).getLsbD j = (decide (k ≤ j) && v.getLsbD (j - k)) := by
  have hle : (!decide (j < k)) = decide (k ≤ j) := by rw [← decide_not, decide_eq_decide]; exact not_lt
  rw [shl32_eq_shiftLeft, BitVec.getLsbD_shiftLeft, decide_eq_true hj, Bool.true_and, hle]

/-- Zeros enter at the top: an index of `v` past bit 31 reads as 0. -/
theorem getLsbD_lsr32 (v : Word) (k j : Nat) :
    (lsr32 v k).getLsbD j = (decide (j + k < 32) && v.getLsbD (j + k)) := by
  rw [lsr32_eq_ushiftRight, BitVec.getLsbD_ushiftRight, Nat.add_comm k j]
  by_cases h : j + k < 32
  · rw [decide_eq_true h, Bool.true_and]
  · rw [decide_eq_false h, Bool.false_and, BitVec.getLsbD_of_ge _ _ (not_lt.mp h)]

/-- Copies of bit 31 enter at the top. -/
theorem getLsbD_asr32 (v : Word) (k : Nat) {j : Nat} (hj : j < 32) :
    (asr32 v k).getLsbD j = if j + k < 32 then v.getLsbD (j + k) else v.getLsbD 31 := by
  rw [asr32_eq_sshiftRight, BitVec.getLsbD_sshiftRight, decide_eq_false (not_le.mpr hj), Bool.not_false,
    Bool.true_and, Nat.add_comm k j, BitVec.msb_eq_getLsbD_last]

/-- Settles O6: each primitive is a shift of the library, whose number and bits the lemmas above give. -/
theorem primitivesFollowTheirArithmetic : Obligations.PrimitivesFollowTheirArithmetic := by
  intro v k _
  exact ⟨toNat_shl32 v k, toNat_lsr32 v k, toInt_asr32 v k, fun _ hj => getLsbD_shl32 v k hj,
    fun j _ => getLsbD_lsr32 v k j, fun _ hj => getLsbD_asr32 v k hj⟩

end Sys2Proof.Machine
end

section
/-! Proof of the statements about the ports (10_state.md R23, R24). The outputs are read through two lemmas, their value
on four driven inputs and the four ways to have none; a step and an instruction are read through the lemmas of
Laws/Step.lean that say what each can do. -/

namespace Sys2Proof.Machine

/-! ## The outputs as a function of the four inputs -/

theorem State.operand_of_inputs {s : State} {hi lo : Word} (hhi : s.hiIn = some hi) (hlo : s.loIn = some lo) :
    s.operand = some ⟨hi, lo⟩ :=
  State.operand_eq_some (p := ⟨hi, lo⟩) |>.mpr ⟨hhi, hlo⟩

/-- On four driven inputs the outputs show R23's function of them. -/
theorem State.result_of_inputs {s : State} {d : BitVec 1} {n : ShiftAmount} {hi lo : Word} (hd : s.dir = some d)
    (hn : s.n = some n) (hhi : s.hiIn = some hi) (hlo : s.loIn = some lo) :
    s.result = some (portFunction d n ⟨hi, lo⟩) := by
  unfold State.result
  rw [hd, hn, State.operand_of_inputs hhi hlo]

/-- The outputs have no value exactly while some input is undriven (R24). -/
theorem State.result_eq_none {s : State} :
    s.result = none ↔ s.dir = none ∨ s.n = none ∨ s.hiIn = none ∨ s.loIn = none := by
  rw [← State.operand_eq_none]
  unfold State.result
  cases s.dir <;> cases s.n <;> cases s.operand <;> simp

/-- R24 in every state, reachable or not: the outputs are stored nowhere. -/
theorem coherent (s : State) : Coherent s := by
  unfold Coherent
  split
  · next hd hn hhi hlo => exact State.result_of_inputs hd hn hhi hlo
  · next undriven =>
    by_contra hr
    obtain ⟨r, hr⟩ := Option.ne_none_iff_exists'.mp hr
    obtain ⟨w, p, hw, hp, -⟩ := State.result_eq_some.mp hr
    obtain ⟨hd, hn⟩ := State.opWord_eq_some.mp hw
    obtain ⟨hhi, hlo⟩ := State.operand_eq_some.mp hp
    exact undriven _ _ _ _ hd hn hhi hlo

theorem State.hiOut_of_result_none {s : State} (h : s.result = none) : s.hiOut = none := by
  rw [State.hiOut, h]; rfl

theorem State.loOut_of_result_none {s : State} (h : s.result = none) : s.loOut = none := by
  rw [State.loOut, h]; rfl

/-! ## What an instruction and a step leave on the ports and with the host -/

theorem opWord_of_exec {i : Instr} {s t : State} (h : exec i s = .next t) : t.opWord = some (encode i) := by
  obtain ⟨p, -, rfl⟩ := exec_eq_next.mp h
  exact State.opWord_driveWord s (encode i)

/-- After an instruction the outputs have a value, and the host carries it (log entry 1). -/
theorem result_eq_pair_of_exec {i : Instr} {s t : State} (h : exec i s = .next t) :
    ∃ r, t.result = some r ∧ t.pair = some r := by
  obtain ⟨p, hp, rfl⟩ := exec_eq_next.mp h
  exact ⟨_, result_of_exec _ hp, rfl⟩

theorem step_of_opWord {s : State} {w : OpWord} (h : s.present.opWord = some w) :
    step s = exec (decode w) s.present := by
  unfold step operationCycle
  rw [h]

/-- A step that answers is an instruction that completed on what the host presents. -/
theorem exec_of_step {s t : State} (h : step s = .next t) : ∃ i, exec i s.present = .next t := by
  obtain ⟨w, p, hw, -, -⟩ := step_eq_next.mp h
  exact ⟨decode w, (step_of_opWord hw).symm.trans h⟩

/-! ## The settled statements -/

/-- Settles O31: the four inputs are a word and an operand, so the step completes, and what it presents is what the
outputs show after it. -/
theorem everyInputCombinationGivesItsResult : Obligations.EveryInputCombinationGivesItsResult := by
  intro s d n hi lo hd hn hhi hlo
  have hw : s.present.opWord = some (opWordOf d n) :=
    State.opWord_eq_some.mpr ⟨by rw [opDir_opWordOf, hd], by rw [opAmount_opWordOf, hn]⟩
  exact ⟨_, step_eq_next.mpr ⟨_, _, hw, State.operand_of_inputs hhi hlo, rfl⟩,
    State.result_of_inputs hd hn hhi hlo⟩

/-- Settles O38: an undriven input leaves no word or no operand, and these are what an instruction and a step fault
on. -/
theorem undrivenInputFaults : Obligations.UndrivenInputFaults := by
  refine ⟨fun i s h => exec_eq_fault.mpr ⟨State.operand_eq_none.mpr h, rfl⟩, fun s hs h => ?_⟩
  rw [← or_assoc, ← State.opWord_eq_none, ← State.operand_eq_none] at h
  exact step_eq_fault.mpr ⟨by rwa [State.present_nil hs], rfl⟩

/-- Settles O40: the outputs follow the inputs in every state, and the instruction the step performed left the host
with the pair they show. -/
theorem outputsStayTheFunctionOfTheInputs : Obligations.OutputsStayTheFunctionOfTheInputs := by
  intro s t h
  obtain ⟨i, hi⟩ := exec_of_step h
  obtain ⟨r, hr, hp⟩ := result_eq_pair_of_exec hi
  exact ⟨coherent t, hp.trans hr.symm, by rw [hr]; exact Option.some_ne_none r⟩

/-- Settles O44: an instruction drives its word and hands the host a pair; where the word stood on the ports already,
only the host's pair is new, which no port reads. -/
theorem instructionsChangeOnlyWordResultAndPair : Obligations.InstructionsChangeOnlyWordResultAndPair := by
  intro i s t h
  have hword := opWord_of_exec h
  obtain ⟨r, hr, hpair⟩ := result_eq_pair_of_exec h
  obtain ⟨p, -, rfl⟩ := exec_eq_next.mp h
  refine ⟨rfl, rfl, rfl, rfl, hword, hpair.trans hr.symm, fun hw => ?_⟩
  rw [State.driveWord_of_opWord hw]
  exact ⟨rfl, rfl, rfl, rfl⟩

/-- Settles O30: one lemma for each case of what the host presents, and the two lemmas on an instruction that
completes. -/
theorem stepRunsTheDecodedInstruction : Obligations.StepRunsTheDecodedInstruction := by
  refine ⟨fun _ _ => step_of_opWord, fun s w ws p hs hp => ?_, fun _ => State.present_nil, fun s w ws hs hp => ?_,
    fun _ _ _ h => ⟨opWord_of_exec h, result_eq_pair_of_exec h⟩⟩
  · rw [State.present_cons_some hs hp]
    exact ⟨rfl, State.opWord_driveWord (s.setProgram ws) w⟩
  · rw [State.present_cons_none hs hp]
    rfl

/-- Settles O39: no input of `State.reset` is driven, so its outputs have no value and a step has no word to
decode. -/
theorem resetDrivesNoPort : Obligations.ResetDrivesNoPort := by
  have hr : State.reset.result = none := State.result_eq_none.mpr (.inl State.reset_dir)
  obtain ⟨-, step_undriven⟩ := undrivenInputFaults
  exact ⟨State.reset_dir, State.reset_n, State.reset_hiIn, State.reset_loIn, State.hiOut_of_result_none hr,
    State.loOut_of_result_none hr, step_undriven _ State.reset_program (.inl State.reset_dir)⟩

/-- Settles O41: the four inputs driven or one of them not, and the two drives of a host as the first case. -/
theorem outputsFollowTheInputsAtEveryMoment : Obligations.OutputsFollowTheInputsAtEveryMoment := by
  refine ⟨coherent, fun s d n hi lo hd hn hhi hlo => ?_, fun s h => ?_, fun s w p => ?_⟩
  · have hr := State.result_of_inputs hd hn hhi hlo
    exact ⟨State.hiOut_of_result hr, State.loOut_of_result hr⟩
  · have hr := State.result_eq_none.mpr h
    exact ⟨State.hiOut_of_result_none hr, State.loOut_of_result_none hr⟩
  · have hr : ((s.driveWord w).driveOperand p).result = some (portFunction (opDir w) (opAmount w) p) :=
      State.result_of_inputs rfl rfl rfl rfl
    exact ⟨State.hiOut_of_result hr, State.loOut_of_result hr⟩

/-- Settles O42: coherence holds of every state, and at reset neither the host nor an output has a value. -/
theorem outputsAreTheFunctionOfTheInputsAtReset : Obligations.OutputsAreTheFunctionOfTheInputsAtReset :=
  ⟨coherent State.reset, State.reset_pair.trans (State.result_eq_none.mpr (.inl State.reset_dir)).symm⟩

end Sys2Proof.Machine
end

section
/-! Proof of the statements of 20_memory.md: the halves as slices of the wide view (R25), an operation repeated on the
same inputs (R27), and two operations in either order (R29). -/

namespace Sys2Proof.Machine

/-! ## The halves and the wide view (R25) -/

theorem State.xIn_of_operand {s : State} {p : HalfPair} (h : s.operand = some p) : s.xIn = some (recompose p) := by
  rw [State.xIn, h]; rfl

theorem lo_getLsbD_eq_recompose (p : HalfPair) {i : Nat} (hi : i < 32) :
    p.lo.getLsbD i = (recompose p).getLsbD i := by
  rw [recompose_getLsbD, if_pos hi]

theorem hi_getLsbD_eq_recompose (p : HalfPair) (i : Nat) : p.hi.getLsbD i = (recompose p).getLsbD (32 + i) := by
  rw [recompose_getLsbD, if_neg (Nat.not_lt.mpr (Nat.le_add_right 32 i)), Nat.add_sub_cancel_left]

/-- Settles O10: the wide view of a pair, at the inputs and at the outputs alike, is its recomposition. -/
theorem halvesAreTheBitsOfTheWideView : Obligations.HalvesAreTheBitsOfTheWideView := by
  intro s p
  have halves : ∀ i, i < 32 →
      p.lo.getLsbD i = (recompose p).getLsbD i ∧ p.hi.getLsbD i = (recompose p).getLsbD (32 + i) :=
    fun i hi => ⟨lo_getLsbD_eq_recompose p hi, hi_getLsbD_eq_recompose p i⟩
  exact ⟨fun hp => ⟨recompose p, State.xIn_of_operand hp, halves⟩,
    fun hr => ⟨recompose p, State.xOut_of_result hr, halves⟩⟩

/-! ## An operation repeated on the same inputs (R27) -/

/-- With no word left, a step performs the word on the ports on the operand there, and only the host's pair is new. -/
theorem step_of_program_nil {s : State} {w : OpWord} {p : HalfPair} (hs : s.program = []) (hw : s.opWord = some w)
    (hp : s.operand = some p) : step s = .next (s.holdPair (portFunction (opDir w) (opAmount w) p)) := by
  have hpres := State.present_nil hs
  exact step_eq_next.mpr ⟨w, p, by rw [hpres, hw], by rw [hpres, hp], by rw [hpres]⟩

/-- Settles O34: a step leaves the inputs it presented on the ports, so the second step computes the pair the host
already holds. -/
theorem repeatingAnOperationChangesNothing : Obligations.RepeatingAnOperationChangesNothing := by
  intro s t hstep hprog
  obtain ⟨w, p, hw, hp, rfl⟩ := step_eq_next.mp hstep
  -- The carried pair is no port, so the word and the operand read as before it was taken.
  exact step_of_program_nil hprog hw hp

/-! ## Two operations in either order (R29) -/

/-- A host with no word left that drives a word and an operand gets their result, whatever was on the ports before, and
still has no word left. -/
theorem step_driveWord_driveOperand {s : State} (w : OpWord) (p : HalfPair) (hs : s.program = []) :
    ∃ t, step ((s.driveWord w).driveOperand p) = .next t ∧ t.program = [] ∧
      t.result = some (portFunction (opDir w) (opAmount w) p) := by
  have hw : ((s.driveWord w).driveOperand p).opWord = some w := State.opWord_driveWord s w
  have hp := State.operand_driveOperand (s.driveWord w) p
  exact ⟨_, step_of_program_nil hs hw hp, hs, State.result_eq_some.mpr ⟨w, p, hw, hp, rfl⟩⟩

/-- Settles O36: each operation's result is the function of what the host drove for it, in either order. -/
theorem independentOperationsRunInAnyOrder : Obligations.IndependentOperationsRunInAnyOrder := by
  intro s v w p q hs
  obtain ⟨a, stepA, progA, resA⟩ := step_driveWord_driveOperand v p hs
  obtain ⟨b, stepB, -, resB⟩ := step_driveWord_driveOperand w q progA
  obtain ⟨c, stepC, progC, resC⟩ := step_driveWord_driveOperand w q hs
  obtain ⟨d, stepD, -, resD⟩ := step_driveWord_driveOperand v p progC
  exact ⟨a, b, c, d, stepA, stepB, stepC, stepD, resA.trans resD.symm, resB.trans resC.symm⟩

end Sys2Proof.Machine
end

section
/-! Proof of the statements on the encoding (30_encoding.md R31 to R34). Decoding is read off the two fields of a word:
the direction bit chooses the instruction, and a mask or a range of words fixes that bit. -/

namespace Sys2Proof

/-! ## The two fields of a word -/

theorem opAmount_eq_ofNat (w : OpWord) : opAmount w = BitVec.ofNat 5 w.toNat := rfl

theorem opAmount_eq_setWidth (w : OpWord) : opAmount w = w.setWidth 5 :=
  BitVec.eq_of_toNat_eq (by rw [opAmount_eq_ofNat, BitVec.toNat_ofNat, BitVec.toNat_setWidth])

/-- Mask 0x20 of R34 keeps the direction bit. -/
theorem opDir_and_mask (w : OpWord) : opDir (w &&& 0x20#6) = opDir w := by
  have hmask : (0x20#6).extractLsb' 5 1 = BitVec.allOnes 1 := rfl
  rw [opDir, BitVec.extractLsb'_and, hmask, BitVec.and_allOnes, opDir]

/-- Mask 0x1F of R34 keeps the amount. -/
theorem opAmount_and_mask (w : OpWord) : opAmount (w &&& 0x1F#6) = opAmount w := by
  have hmask : (0x1F#6).extractLsb' 0 5 = BitVec.allOnes 5 := rfl
  rw [opAmount, BitVec.extractLsb'_and, hmask, BitVec.and_allOnes, opAmount]

theorem toNat_opDir (w : OpWord) : (opDir w).toNat = w.toNat / 32 % 2 := by
  rw [opDir, BitVec.extractLsb'_toNat, Nat.shiftRight_eq_div_pow]

theorem opDir_of_toNat_le {w : OpWord} (h : w.toNat ≤ 0x1F) : opDir w = 0#1 :=
  BitVec.eq_of_toNat_eq (by rw [toNat_opDir, Nat.div_eq_of_lt (by omega)]; rfl)

theorem opDir_of_le_toNat {w : OpWord} (h : 0x20 ≤ w.toNat) : opDir w = 1#1 :=
  BitVec.eq_of_toNat_eq (by have := w.isLt; rw [toNat_opDir, BitVec.toNat_ofNat]; omega)

/-! ## Decoding by the direction bit, and decoding what was encoded -/

theorem decode_of_opDir_zero {w : OpWord} (h : opDir w = 0#1) : decode w = .lshift (opAmount w) := by
  rw [decode_eq_ite, if_pos h]

theorem decode_of_opDir_one {w : OpWord} (h : opDir w = 1#1) : decode w = .rshift (opAmount w) := by
  rw [decode_eq_ite, h, if_neg (by decide)]

theorem decode_encode (i : Instr) : decode (encode i) = i := by
  cases i with
  | lshift n =>
    obtain ⟨hdir, hamount⟩ := Laws.FieldsOfWord.lshift n
    rw [decode, hdir, hamount]; rfl
  | rshift n =>
    obtain ⟨hdir, hamount⟩ := Laws.FieldsOfWord.rshift n
    rw [decode, hdir, hamount]; rfl

/-! ## A word kept in a byte -/

/-- The bits of a byte above bit 5 are no part of its word (log entry 7). -/
theorem wordOfByte_and_mask (b : Byte) : wordOfByte (b &&& 0x3F#8) = wordOfByte b := by
  have hmask : (0x3F#8).extractLsb' 0 6 = BitVec.allOnes 6 := rfl
  rw [wordOfByte, BitVec.extractLsb'_and, hmask, BitVec.and_allOnes, wordOfByte]

/-- A byte with no bit above bit 5 is the byte of its word. -/
theorem byteOfWord_wordOfByte {b : Byte} (h : b.toNat < 64) : byteOfWord (wordOfByte b) = b := by
  apply BitVec.eq_of_toNat_eq
  rw [byteOfWord, wordOfByte, BitVec.toNat_setWidth, BitVec.extractLsb'_toNat, Nat.shiftRight_zero,
    Nat.mod_eq_of_lt h, Nat.mod_eq_of_lt b.isLt]

theorem wordOfByte_encodeByte (i : Instr) : wordOfByte (encodeByte i) = encode i := wordOfByte_byteOfWord _

theorem decodeImage_encodeImage (is : List Instr) : decodeImage (encodeImage is) = is := by
  induction is with
  | nil => rfl
  | cons i is ih => rw [encodeImage, decodeImage, wordOfByte_encodeByte, decode_encode, ih]

theorem encodeImage_decodeImage (bs : List Byte) (h : ∀ b ∈ bs, b.toNat < 64) :
    encodeImage (decodeImage bs) = bs := by
  induction bs with
  | nil => rfl
  | cons b bs ih =>
    obtain ⟨hb, hbs⟩ := List.forall_mem_cons.mp h
    rw [decodeImage, encodeImage, encodeByte, Machine.encode_of_decode, byteOfWord_wordOfByte hb, ih hbs]

/-! ## The settled statements -/

/-- Settles O4: both directions by induction on the list, from the round trips of one word in one byte. -/
theorem programImageReadsBack : Obligations.ProgramImageReadsBack := by
  refine ⟨decodeImage_encodeImage, encodeImage_decodeImage, fun i rest => ?_, fun b c rest h => ?_⟩
  · rw [decodeBytes, wordOfByte_encodeByte, decode_encode]
  · rw [decodeBytes, decodeBytes, ← wordOfByte_and_mask b, h, wordOfByte_and_mask]

/-- Settles O1: the masks and the ranges fix the direction bit, and the amount is the low five bits. -/
theorem decodeAndEncodeFollowTheOpcodeMap : Obligations.DecodeAndEncodeFollowTheOpcodeMap := by
  refine ⟨fun w h => ?_, fun w h => ?_, fun w h => ?_, fun w h => ?_, fun _ => rfl, fun _ => rfl,
    Machine.encode_of_decode, decode_encode⟩
  · have hdir : opDir w = 0#1 := by rw [← opDir_and_mask, h]; rfl
    rw [decode_of_opDir_zero hdir, ← opAmount_and_mask, opAmount_eq_setWidth]
  · have hdir : opDir w = 1#1 := by rw [← opDir_and_mask, h]; rfl
    rw [decode_of_opDir_one hdir, ← opAmount_and_mask, opAmount_eq_setWidth]
  · rw [decode_of_opDir_zero (opDir_of_toNat_le h), opAmount_eq_ofNat]
  · have hamount : opAmount w = BitVec.ofNat 5 (w.toNat - 0x20) :=
      BitVec.eq_of_toNat_eq (by rw [opAmount_eq_ofNat, BitVec.toNat_ofNat, BitVec.toNat_ofNat]; omega)
    rw [decode_of_opDir_one (opDir_of_le_toNat h), hamount]

/-- Settles O3: each word is fixed, so the decoder runs on it. -/
theorem decodeOfWordsWrittenOut : Obligations.DecodeOfWordsWrittenOut :=
  ⟨rfl, rfl, rfl, rfl, rfl, rfl, rfl, rfl⟩

end Sys2Proof
end

section
/-! Proof that all 64 words are legal (30_encoding.md R35). An instruction's amount is always in 0..31, and a word keeps
every operand exactly when its amount is 0: the pair of value 1 tells any other amount apart. -/

namespace Sys2Proof

theorem amountInRange_iff {n : Int} : amountInRange n = true ↔ 0 ≤ n ∧ n ≤ 31 := decide_eq_true_iff

theorem amountInRange_toNat (n : ShiftAmount) : amountInRange n.toNat = true :=
  amountInRange_iff.mpr ⟨Int.natCast_nonneg _, by have := n.isLt; omega⟩

theorem wellFormed_eq_true (i : Instr) : i.wellFormed = true := by
  cases i <;> exact amountInRange_toNat _

theorem opAmount_eq_zero_iff : ∀ w : OpWord, opAmount w = 0#5 ↔ w = 0x00#6 ∨ w = 0x20#6 := by decide

namespace Machine

theorem portFunction_zero (d : BitVec 1) (p : HalfPair) : portFunction d 0#5 p = p := by
  rw [portFunction, shiftLeft_zero, shiftRight_zero, ite_self]

/-- The pair of value 1 loses its lowest bit to every shift by an amount other than 0. -/
theorem portFunction_one_ne_self (d : BitVec 1) {n : ShiftAmount} (h : n ≠ 0#5) :
    portFunction d n ⟨0#32, 1#32⟩ ≠ ⟨0#32, 1#32⟩ := by
  have hpos : 0 < n.toNat := (amount_bounds h).1
  have hbit : (portFunction d n ⟨0#32, 1#32⟩).lo.getLsbD 0 = false := by
    unfold portFunction
    split
    · rw [shiftLeft_of_ne_zero _ h]
      simp [hpos]
    · rw [shiftRight_of_ne_zero _ h]
      simp [BitVec.getLsbD_one, hpos.ne']
  intro heq
  rw [heq] at hbit
  cases hbit

theorem exec_decode_of_operand (w : OpWord) {s : State} {p : HalfPair} (h : s.operand = some p) :
    ∃ t, exec (decode w) s = .next t ∧ t.result = some (portFunction (opDir w) (opAmount w) p) := by
  have hres := result_of_exec (i := decode w) (portFunction (opDir w) (opAmount w) p) h
  rw [encode_of_decode] at hres
  exact ⟨_, exec_eq_next.mpr ⟨p, h, rfl⟩, by rwa [encode_of_decode]⟩

/-- Settles O2: the round trips give each word its one instruction; a word with amount 0 keeps every operand, and one
with another amount does not keep the pair of value 1. -/
theorem everyOperationWordIsLegal : Obligations.EveryOperationWordIsLegal := by
  refine ⟨fun w => ?meaning, fun w s p hp => ?completes, fun i a ha heq => ?amount, fun w => ⟨fun hkeeps => ?only,
    fun hw s p hp => ?keeps⟩⟩
  case meaning =>
    exact ⟨decode w, wellFormed_eq_true _, encode_of_decode w, fun j hj => by rw [← hj, decode_encode]⟩
  case completes =>
    obtain ⟨t, ht, -⟩ := exec_decode_of_operand w hp
    exact ⟨t, ht⟩
  case amount =>
    rw [← heq, amountInRange_toNat] at ha
    cases ha
  case only =>
    have hp := State.operand_driveOperand State.reset ⟨0#32, 1#32⟩
    obtain ⟨t, ht, hres⟩ := hkeeps _ _ hp
    obtain ⟨t', ht', hres'⟩ := exec_decode_of_operand w hp
    obtain rfl : t = t' := Host.Outcome.next.inj (ht.symm.trans ht')
    rw [← opAmount_eq_zero_iff]
    by_contra hne
    exact portFunction_one_ne_self _ hne (Option.some.inj (hres'.symm.trans hres))
  case keeps =>
    have hres := exec_decode_of_operand w hp
    rwa [(opAmount_eq_zero_iff w).mpr hw, portFunction_zero] at hres

end Machine
end Sys2Proof
end

section
/-! Proof of the assembler's statement (30_encoding.md R36, R37). A line of two parts, neither with a blank or a `#` in
it, is read as these two parts; the disassembler writes such a line, with an amount that is read back as its number. -/

namespace Sys2Proof.Machine

/-! ## The parts of a line -/

/-- What can stand as one part of a line: no blank and no comment in it. -/
def IsPart (part : List Char) : Prop := part ≠ [] ∧ ' ' ∉ part ∧ '\t' ∉ part ∧ '#' ∉ part

theorem IsPart.isBlank_eq_false {part : List Char} (h : IsPart part) : ∀ c ∈ part, isBlank c = false := by
  obtain ⟨-, hspace, htab, -⟩ := h
  intro c hc
  have hs : c ≠ ' ' := ne_of_mem_of_not_mem hc hspace
  have ht : c ≠ '\t' := ne_of_mem_of_not_mem hc htab
  simp [isBlank, hs, ht]

theorem stripComment_eq_self {line : List Char} (h : '#' ∉ line) : stripComment line = line := by
  induction line with
  | nil => rfl
  | cons c cs ih =>
    obtain ⟨hc, hcs⟩ := not_or.mp (mt List.mem_cons.mpr h)
    rw [stripComment, if_neg (Ne.symm hc), ih hcs]

/-- Characters that are no blanks are added to the part being read. -/
theorem fieldsFrom_append {part : List Char} (h : ∀ c ∈ part, isBlank c = false) (held rest : List Char) :
    fieldsFrom held (part ++ rest) = fieldsFrom (part.reverse ++ held) rest := by
  induction part generalizing held with
  | nil => rfl
  | cons c cs ih =>
    obtain ⟨hc, hcs⟩ := List.forall_mem_cons.mp h
    rw [List.cons_append, fieldsFrom, if_neg (by simp [hc]), ih hcs, List.reverse_cons, List.append_assoc,
      List.singleton_append]

theorem fieldsFrom_part {a : List Char} (ha : IsPart a) : fieldsFrom [] a = [a] := by
  have hread := fieldsFrom_append ha.isBlank_eq_false [] []
  obtain ⟨hne, -⟩ := ha
  rw [List.append_nil, List.append_nil] at hread
  rw [hread, fieldsFrom, if_neg (by simpa using hne), List.reverse_reverse]

/-- Two parts with a space between them are the fields of their line. -/
theorem fields_of_two_parts {m a : List Char} (hm : IsPart m) (ha : IsPart a) :
    fieldsFrom [] (stripComment (m ++ ' ' :: a)) = [m, a] := by
  have hread := fieldsFrom_append hm.isBlank_eq_false [] (' ' :: a)
  have hlast := fieldsFrom_part ha
  have hspace : isBlank ' ' = true := rfl
  obtain ⟨hne, -, -, hmc⟩ := hm
  obtain ⟨-, -, -, hac⟩ := ha
  have hcomment : '#' ∉ m ++ ' ' :: a := by simp [hmc, hac]
  rw [stripComment_eq_self hcomment, hread, List.append_nil, fieldsFrom, if_pos hspace,
    if_neg (by simpa using hne), List.reverse_reverse, hlast]

/-! ## What the disassembler writes -/

theorem isPart_mnemonicOf (d : Direction) : IsPart (mnemonicOf d) := by
  unfold IsPart
  cases d <;> decide

theorem isPart_decimalText : ∀ n : ShiftAmount, IsPart (decimalText n) := by
  unfold IsPart
  decide

/-- An amount written in decimal is read back. -/
theorem decimal_decimalText : ∀ n : ShiftAmount, decimal (decimalText n) = some (n.toNat : Int) := by decide

/-! ## Assembling -/

theorem assembleAmount_of_inRange (d : Direction) {text : List Char} {n : Int} (h : decimal text = some n)
    (hn : amountInRange n = true) :
    assembleAmount d text = .ok (opWordOf (bitOfDirection d) (BitVec.ofInt 5 n)) := by
  rw [assembleAmount, h]
  exact if_pos hn

theorem assembleAmount_of_outOfRange (d : Direction) {text : List Char} {n : Int} (h : decimal text = some n)
    (hn : amountInRange n = false) : assembleAmount d text = .error (.noEncoding n) := by
  rw [assembleAmount, h]
  exact if_neg (by simp [hn])

theorem assembleAmount_decimalText (d : Direction) (n : ShiftAmount) :
    assembleAmount d (decimalText n) = .ok (opWordOf (bitOfDirection d) n) := by
  rw [assembleAmount_of_inRange d (decimal_decimalText n) (amountInRange_toNat n), BitVec.ofInt_natCast,
    BitVec.ofNat_toNat, BitVec.setWidth_eq]

theorem assembleLine_of_fields (d : Direction) {line a : List Char}
    (h : fieldsFrom [] (stripComment line) = [mnemonicOf d, a]) :
    assembleLine line = (assembleAmount d a).map some := by
  rw [assembleLine, h]
  cases d <;> rfl

theorem assembleLine_disassemble (w : OpWord) : assembleLine (disassemble w) = .ok (some w) := by
  rw [disassemble, assembleLine_of_fields _ (fields_of_two_parts (isPart_mnemonicOf _) (isPart_decimalText _)),
    assembleAmount_decimalText]
  have hw : opWordOf (bitOfDirection (decode w).direction) (decode w).amount = w := encode_of_decode w
  rw [hw]; rfl

/-- What the disassembler prints has a space in it, and `nop` has none. -/
theorem disassemble_ne_nop (w : OpWord) : disassemble w ≠ mnemonicNop := by
  have hspace : ' ' ∈ disassemble w := List.mem_append_right _ List.mem_cons_self
  intro heq
  rw [heq] at hspace
  exact absurd hspace (by decide)

/-- An amount in range keeps its value in the five bits of the field. -/
theorem toNat_ofInt_of_inRange {n : Int} (h : amountInRange n = true) : ((BitVec.ofInt 5 n).toNat : Int) = n := by
  obtain ⟨h0, h31⟩ := amountInRange_iff.mp h
  rw [BitVec.toNat_ofInt]
  omega

/-- Settles O5: the disassembled line is read as its two parts, and an amount is encoded or refused by its range. -/
theorem assemblerReturnsTheDisassembledWord : Obligations.AssemblerReturnsTheDisassembledWord := by
  refine ⟨assembleLine_disassemble, rfl, disassemble_ne_nop, fun d _ _ => assembleAmount_of_outOfRange d,
    fun d text n h hn => ⟨_, assembleAmount_of_inRange d h hn, ?_, ?_⟩⟩
  · rw [opAmount_opWordOf, toNat_ofInt_of_inRange hn]
  · rw [opDir_opWordOf, directionOfBit_bitOfDirection]

end Sys2Proof.Machine
end

section
/-! Proof of the statements on the codec (40_codec.md R39 to R41, 10_state.md R14). The two round trips are facts about
slices of a concatenation; as numbers, both directions follow from one: the recomposed vector read as signed is the value
of its pair. -/

namespace Sys2Proof.Machine

/-! ## The round trips (R41) -/

theorem recompose_decompose (x : DWord) : recompose (decompose x) = x := BitVec.extractLsb'_append_extractLsb'

theorem decompose_recompose (p : HalfPair) : decompose (recompose p) = p := by
  rw [decompose, recompose, BitVec.extractLsb'_append_eq_left, BitVec.extractLsb'_append_eq_right]

/-! ## The value of a pair (R14, R40) -/

theorem recompose_toInt (p : HalfPair) : (recompose p).toInt = val p := by
  rw [recompose, BitVec.toInt_append, if_neg (by decide), mul_comm, val]

theorem val_decompose (x : DWord) : val (decompose x) = x.toInt := by
  rw [← recompose_toInt, recompose_decompose]

theorem val_bounds (p : HalfPair) : -(2 ^ 63) ≤ val p ∧ val p ≤ 2 ^ 63 - 1 := by
  rw [← recompose_toInt]
  exact ⟨BitVec.le_toInt _, Int.le_sub_one_of_lt BitVec.toInt_lt⟩

theorem val_neg_iff (p : HalfPair) : val p < 0 ↔ p.hi.getLsbD 31 = true := by
  rw [← recompose_msb, BitVec.msb_eq_toInt, decide_eq_true_iff, recompose_toInt]

/-- The source's wording of R40: below bit 32 the shifted half is zero, from bit 32 on the extended one is. -/
theorem recompose_eq_shiftLeft_or (p : HalfPair) :
    recompose p = (p.hi.signExtend 64 <<< 32) ||| p.lo.setWidth 64 := by
  apply BitVec.eq_of_getLsbD_eq
  intro i hi
  rw [recompose_getLsbD, BitVec.getLsbD_or, BitVec.getLsbD_shiftLeft, BitVec.getLsbD_signExtend,
    BitVec.getLsbD_setWidth]
  by_cases hlow : i < 32
  · simp [hi, hlow]
  · have hlo : p.lo.getLsbD i = false := BitVec.getLsbD_of_ge _ _ (Nat.le_of_not_lt hlow)
    have hhi : i - 32 < 32 ∧ i - 32 < 64 := by omega
    simp [hi, hlow, hlo, hhi]

/-! ## The halves of a value (R39) -/

/-- The source's wording of R39: of a shift by 32, only the bits that came from bit 32 on are kept. -/
theorem decompose_hi_eq_sshiftRight (x : DWord) : (decompose x).hi = (x.sshiftRight 32).setWidth 32 := by
  apply BitVec.eq_of_getLsbD_eq
  intro i hi
  have hin : ¬64 ≤ i ∧ 32 + i < 64 := by omega
  rw [decompose_hi_getLsbD, BitVec.getLsbD_setWidth, BitVec.getLsbD_sshiftRight]
  simp [hin]

theorem decompose_lo_eq_and_mask (x : DWord) : (decompose x).lo = (x &&& 0xFFFFFFFF#64).setWidth 32 := by
  have hmask : (0xFFFFFFFF#64).setWidth 32 = BitVec.allOnes 32 := rfl
  rw [BitVec.setWidth_and, hmask, BitVec.and_allOnes, BitVec.setWidth_eq_extractLsb' (by decide), decompose]

/-- The halves are the quotient and the remainder: they make up the value, and `lo` is below the divisor. -/
theorem decompose_ediv_emod (x : DWord) :
    x.toInt / 2 ^ 32 = (decompose x).hi.toInt ∧ x.toInt % 2 ^ 32 = (decompose x).lo.toNat := by
  have hval : (decompose x).hi.toInt * 2 ^ 32 + (decompose x).lo.toNat = x.toInt := val_decompose x
  have hlt : (decompose x).lo.toNat < 2 ^ 32 := (decompose x).lo.isLt
  exact (Int.ediv_emod_unique (by decide)).mpr ⟨by omega, Int.natCast_nonneg _, by exact_mod_cast hlt⟩

/-! ## The settled statements -/

/-- Settles O7: the slices bit by bit and in the source's wording, the halves as quotient and remainder; each corner case
is one fixed vector. -/
theorem decomposeGivesFloorAndRemainder : Obligations.DecomposeGivesFloorAndRemainder := by
  refine ⟨fun x => ?_, rfl, rfl, rfl, rfl, rfl, rfl, rfl⟩
  obtain ⟨hdiv, hmod⟩ := decompose_ediv_emod x
  refine ⟨decompose_hi_eq_sshiftRight x, decompose_lo_eq_and_mask x, fun j hj => ⟨?_, ?_⟩, hdiv.symm, hmod.symm⟩
  · rw [decompose_hi_getLsbD, decide_eq_true hj, Bool.true_and]
  · rw [decompose_lo_getLsbD, decide_eq_true hj, Bool.true_and]

/-- Settles O8: the source's wording, and the value of the pair with its bounds and its sign; each corner case is one
fixed pair. -/
theorem recomposeGivesTheValueOfThePair : Obligations.RecomposeGivesTheValueOfThePair := by
  refine ⟨fun p => ?_, rfl, rfl, rfl, rfl⟩
  obtain ⟨hmin, hmax⟩ := val_bounds p
  exact ⟨recompose_eq_shiftLeft_or p, recompose_toInt p, rfl, hmin, hmax, val_neg_iff p⟩

/-- Settles O9: the value a pair comes from is its recomposition, by the two round trips. -/
theorem codecRoundTrip : Obligations.CodecRoundTrip :=
  ⟨recompose_decompose, decompose_recompose,
    fun p => ⟨recompose p, decompose_recompose p, fun y hy => by rw [← hy, recompose_decompose]⟩,
    fun p => (recompose_toInt p).symm⟩

end Sys2Proof.Machine
end

section
/-! Proof of the statements on the left shift (41_shift_left.md). The rule's two halves are read bit by bit for every
amount, the branch for 0 included; from the bits follows that the recomposed result is the library's 64-bit shift (R50),
and from that what the shift is as a number. -/

namespace Sys2Proof.Machine

/-! ## `lshift` at the ports (R44) -/

/-- From every state with an operand `lshift n` completes, and all it does is said by the two updates. -/
theorem exec_lshift {s : State} {p : HalfPair} (n : ShiftAmount) (h : s.operand = some p) :
    exec (.lshift n) s = .next ((s.driveWord (encode (.lshift n))).holdPair (shiftLeft p n)) := by
  rw [← portFunction_encode_lshift]
  exact exec_eq_next.mpr ⟨p, h, rfl⟩

theorem result_after_lshift {s : State} {p : HalfPair} (n : ShiftAmount) (h : s.operand = some p) :
    ((s.driveWord (encode (.lshift n))).holdPair (shiftLeft p n)).result = some (shiftLeft p n) := by
  rw [result_of_exec _ h, portFunction_encode_lshift]

theorem driveWord_encode_lshift (s : State) (n : ShiftAmount) :
    s.driveWord (encode (.lshift n)) = { s with dir := some 0#1, n := some n } := by
  rw [State.driveWord, encode, opDir_opWordOf, opAmount_opWordOf]
  rfl

/-- The pair of the pseudocode, with its test on the amount as a number. -/
theorem shiftLeft_eq_ite (hi lo : Word) (n : ShiftAmount) :
    shiftLeft ⟨hi, lo⟩ n =
      ⟨if n.toNat = 0 then hi else shl32 hi n.toNat ||| lsr32 lo (32 - n.toNat),
        if n.toNat = 0 then lo else shl32 lo n.toNat⟩ := by
  by_cases h : n = 0#5
  · rw [h, shiftLeft_zero]
    rfl
  · have h0 : n.toNat ≠ 0 := Nat.ne_of_gt (amount_bounds h).1
    rw [shiftLeft, if_neg h, if_neg h0, if_neg h0, carryTerm]

/-! ## The carry term (R46) -/

theorem toNat_carryTerm (lo : Word) (n : ShiftAmount) : (carryTerm lo n).toNat = lo.toNat / 2 ^ (32 - n.toNat) :=
  toNat_lsr32 lo _

/-- The two amounts of the rule split the half. -/
theorem two_pow_sub_mul_two_pow (n : ShiftAmount) : 2 ^ (32 - n.toNat) * 2 ^ n.toNat = 2 ^ 32 :=
  pow_sub_mul_pow 2 n.isLt.le

theorem carryTerm_lt (lo : Word) (n : ShiftAmount) : (carryTerm lo n).toNat < 2 ^ n.toNat := by
  rw [toNat_carryTerm]
  exact Nat.div_lt_of_lt_mul (by rw [two_pow_sub_mul_two_pow]; exact lo.isLt)

/-- Exactly the places below bit `n` hold bits of `lo`. -/
theorem getLsbD_carryTerm (lo : Word) (n : ShiftAmount) (j : Nat) :
    (carryTerm lo n).getLsbD j = (decide (j < n.toNat) && lo.getLsbD (32 - n.toNat + j)) := by
  have hn := n.isLt
  rw [carryTerm, getLsbD_lsr32, Nat.add_comm j, decide_eq_decide.mpr (by omega : 32 - n.toNat + j < 32 ↔ j < n.toNat)]

/-- The carry lies below bit `n`, the shifted high half above it. -/
theorem shl32_and_carryTerm (hi lo : Word) (n : ShiftAmount) : shl32 hi n.toNat &&& carryTerm lo n = 0#32 := by
  apply BitVec.eq_of_getLsbD_eq
  intro j hj
  rw [BitVec.getLsbD_and, getLsbD_shl32 _ _ hj, getLsbD_carryTerm, BitVec.getLsbD_zero]
  by_cases h : j < n.toNat
  · rw [decide_eq_false (Nat.not_le.mpr h), Bool.false_and, Bool.false_and]
  · rw [decide_eq_false h, Bool.false_and, Bool.and_false]

/-- No bit of `lo` is lost: what its shift drops is the carry. -/
theorem carryTerm_mul_add_shl32 (lo : Word) (n : ShiftAmount) :
    (carryTerm lo n).toNat * 2 ^ 32 + (shl32 lo n.toNat).toNat = lo.toNat * 2 ^ n.toNat := by
  have hdiv : (carryTerm lo n).toNat = lo.toNat * 2 ^ n.toNat / 2 ^ 32 := by
    rw [toNat_carryTerm, ← two_pow_sub_mul_two_pow n, Nat.mul_div_mul_right _ _ (Nat.two_pow_pos n.toNat)]
  rw [hdiv, toNat_shl32, Nat.div_add_mod']

/-! ## The new halves bit by bit (R47, R48) -/

theorem getLsbD_shiftLeft_hi (p : HalfPair) (n : ShiftAmount) {j : Nat} (hj : j < 32) :
    (shiftLeft p n).hi.getLsbD j =
      if j < n.toNat then p.lo.getLsbD (32 - n.toNat + j) else p.hi.getLsbD (j - n.toNat) := by
  by_cases h0 : n = 0#5
  · rw [h0, shiftLeft_zero]
    rfl
  · rw [shiftLeft, if_neg h0, BitVec.getLsbD_or, getLsbD_shl32 _ _ hj, getLsbD_carryTerm]
    by_cases h : j < n.toNat
    · simp [h, Nat.not_le.mpr h]
    · simp [h, Nat.not_lt.mp h]

theorem getLsbD_shiftLeft_lo (p : HalfPair) (n : ShiftAmount) {j : Nat} (hj : j < 32) :
    (shiftLeft p n).lo.getLsbD j = (decide (n.toNat ≤ j) && p.lo.getLsbD (j - n.toNat)) := by
  by_cases h0 : n = 0#5
  · rw [h0, shiftLeft_zero]
    exact (Bool.true_and _).symm
  · rw [shiftLeft, if_neg h0, getLsbD_shl32 _ _ hj]

/-! ## The wide left shift (R49, R50) -/

/-- A bit of the result is in the low half, or in the high half out of the carry, or in the high half out of `hi`. -/
theorem recompose_shiftLeft (p : HalfPair) (n : ShiftAmount) :
    recompose (shiftLeft p n) = recompose p <<< n.toNat := by
  have hn := n.isLt
  apply BitVec.eq_of_getLsbD_eq
  intro i hi
  rw [recompose_getLsbD, BitVec.getLsbD_shiftLeft, recompose_getLsbD, decide_eq_true hi, Bool.true_and]
  by_cases hlow : i < 32
  · have hsub : i - n.toNat < 32 := by omega
    rw [if_pos hlow, if_pos hsub, getLsbD_shiftLeft_lo p n hlow, ← decide_not,
      decide_eq_decide.mpr (Nat.not_lt (a := i))]
  · have hin : ¬i < n.toNat := by omega
    rw [if_neg hlow, getLsbD_shiftLeft_hi p n (by omega), decide_eq_false hin, Bool.not_false, Bool.true_and]
    by_cases hcarry : i - 32 < n.toNat
    · rw [if_pos hcarry, if_pos (by omega), show 32 - n.toNat + (i - 32) = i - n.toNat by omega]
    · rw [if_neg hcarry, if_neg (by omega), Nat.sub_right_comm]

theorem toNat_recompose_shiftLeft (p : HalfPair) (n : ShiftAmount) :
    (recompose (shiftLeft p n)).toNat = (recompose p).toNat * 2 ^ n.toNat % 2 ^ 64 := by
  rw [recompose_shiftLeft, BitVec.toNat_shiftLeft, Nat.shiftLeft_eq]

theorem ofInt_two_pow (k : Nat) : BitVec.ofInt 64 (2 ^ k) = BitVec.twoPow 64 k := by
  have hcast : ((2 ^ k : Nat) : Int) = 2 ^ k := Nat.cast_pow 2 k
  apply BitVec.eq_of_toNat_eq
  rw [← hcast, BitVec.ofInt_natCast, BitVec.toNat_ofNat, BitVec.toNat_twoPow]

/-- The low 64 bits of the product, whether it overflows or not. -/
theorem recompose_shiftLeft_eq_ofInt (p : HalfPair) (n : ShiftAmount) :
    recompose (shiftLeft p n) = BitVec.ofInt 64 (val p * 2 ^ n.toNat) := by
  rw [recompose_shiftLeft, BitVec.shiftLeft_eq_mul_twoPow, BitVec.ofInt_mul, ofInt_two_pow, ← recompose_toInt,
    BitVec.ofInt_toInt]

theorem val_shiftLeft_of_fits {p : HalfPair} {n : ShiftAmount} (hmin : -(2 ^ 63) ≤ val p * 2 ^ n.toNat)
    (hmax : val p * 2 ^ n.toNat ≤ 2 ^ 63 - 1) : val (shiftLeft p n) = val p * 2 ^ n.toNat := by
  rw [← recompose_toInt, recompose_shiftLeft_eq_ofInt]
  exact BitVec.toInt_ofInt_eq_self (by decide) hmin (Int.lt_of_le_sub_one hmax)

/-! ## The amount 31 (R44) -/

/-- Of each half only the lowest bit moves to the top; the rest of the high half is the carry. -/
theorem shiftLeft_thirtyOne (hi lo : Word) :
    shiftLeft ⟨hi, lo⟩ 31#5 = ⟨hi.extractLsb' 0 1 ++ lo.extractLsb' 1 31, lo.extractLsb' 0 1 ++ 0#31⟩ := by
  have hhi : (shiftLeft ⟨hi, lo⟩ 31#5).hi = hi.extractLsb' 0 1 ++ lo.extractLsb' 1 31 := by
    apply BitVec.eq_of_getLsbD_eq
    intro j hj
    rw [getLsbD_shiftLeft_hi _ _ hj, BitVec.getLsbD_append]
    by_cases h : j < 31
    · simp [h]
    · have : j = 31 := by omega
      simp [this]
  have hlo : (shiftLeft ⟨hi, lo⟩ 31#5).lo = lo.extractLsb' 0 1 ++ 0#31 := by
    rw [shiftLeft_of_ne_zero _ (by decide)]
    exact BitVec.shiftLeft_eq_concat_of_lt (by decide)
  rw [← hhi, ← hlo]

/-! ## The settled statements -/

/-- Settles O13: the carry's number and bits, the halves' bits, and the sum as an OR of terms that share no bit. -/
theorem lshiftHalvesAreConcatenations : Obligations.LshiftHalvesAreConcatenations := by
  intro hi lo n hn
  have hne : n ≠ 0#5 := by rintro rfl; exact absurd hn (by decide)
  have hpair : shiftLeft ⟨hi, lo⟩ n = ⟨shl32 hi n.toNat ||| carryTerm lo n, shl32 lo n.toNat⟩ := if_neg hne
  have hdisj := shl32_and_carryTerm hi lo n
  have hhi := congrArg HalfPair.hi hpair
  have hlo := congrArg HalfPair.lo hpair
  refine ⟨rfl, carryTerm_lt lo n, fun j _ => getLsbD_carryTerm lo n j, hhi, ?_, hdisj,
    fun _ hj => getLsbD_shiftLeft_hi _ n hj, hlo, fun _ hj => getLsbD_shiftLeft_lo _ n hj, ?_⟩
  · rw [hhi, BitVec.add_eq_or_of_and_eq_zero _ _ hdisj]
  · rw [hlo, carryTerm_mul_add_shl32]

/-- Settles O14: the pair on the outputs is the operand's left shift, which recomposes to the wide one. -/
theorem lshiftIsTheWideLeftShift : Obligations.LshiftIsTheWideLeftShift := by
  intro n s p hp
  exact ⟨_, _, exec_lshift n hp, result_after_lshift n hp, recompose_shiftLeft p n, toNat_recompose_shiftLeft p n,
    val_shiftLeft_of_fits⟩

/-- Settles O15: completion and the low 64 bits hold whether the product overflows or not. -/
theorem lshiftOverflowIsSilent : Obligations.LshiftOverflowIsSilent := by
  intro n s p hp _
  exact ⟨_, _, exec_lshift n hp, result_after_lshift n hp, recompose_shiftLeft_eq_ofInt p n,
    State.opWord_driveWord s _, rfl, rfl, rfl, rfl⟩

/-- Settles O11: the pair of the pseudocode is what the host takes and what the outputs show. -/
theorem lshiftCompletesWithItsPair : Obligations.LshiftCompletesWithItsPair := by
  intro n s hi lo hhi hlo
  have hp := State.operand_of_inputs hhi hlo
  have hres := result_after_lshift n hp
  refine ⟨_, _, _, exec_lshift n hp, rfl, rfl, ?_, ?_, ?_⟩
  · rw [State.hiOut_of_result hres, shiftLeft_eq_ite]
  · rw [State.loOut_of_result hres, shiftLeft_eq_ite]
  · rw [driveWord_encode_lshift, shiftLeft_eq_ite, State.holdPair]

/-- Settles O12: `lshift` completes with the pair that the amount 31 gives. -/
theorem lshiftByThirtyOne : Obligations.LshiftByThirtyOne := by
  intro s hi lo hhi hlo
  have hp := State.operand_of_inputs hhi hlo
  have hres := result_after_lshift 31#5 hp
  refine ⟨_, exec_lshift 31#5 hp, ?_, ?_⟩
  · rw [State.hiOut_of_result hres, shiftLeft_thirtyOne]
  · rw [State.loOut_of_result hres, shiftLeft_thirtyOne]

end Sys2Proof.Machine
end

section
/-! Proof of the statements on the right shift (42_shift_right.md). What the high half's shift drops is the borrow term,
so the two new halves make up the floor of the value divided by `2^n` (R54 to R56). From that floor follow the 64-bit
shift (R58), the two fixed points (R52) and the bound on the magnitude (R59). -/

namespace Sys2Proof.Machine

/-! ## `rshift` at the ports (R52) -/

/-- From every state with an operand `rshift n` completes, and all it does is said by the two updates. -/
theorem exec_rshift {s : State} {p : HalfPair} (n : ShiftAmount) (h : s.operand = some p) :
    exec (.rshift n) s = .next ((s.driveWord (encode (.rshift n))).holdPair (shiftRight p n)) := by
  rw [← portFunction_encode_rshift]
  exact exec_eq_next.mpr ⟨p, h, rfl⟩

theorem result_after_rshift {s : State} {p : HalfPair} (n : ShiftAmount) (h : s.operand = some p) :
    ((s.driveWord (encode (.rshift n))).holdPair (shiftRight p n)).result = some (shiftRight p n) := by
  rw [result_of_exec _ h, portFunction_encode_rshift]

theorem driveWord_encode_rshift (s : State) (n : ShiftAmount) :
    s.driveWord (encode (.rshift n)) = { s with dir := some 1#1, n := some n } := by
  rw [State.driveWord, encode, opDir_opWordOf, opAmount_opWordOf]
  rfl

/-- The pair of the pseudocode, with its test on the amount as a number. -/
theorem shiftRight_eq_ite (hi lo : Word) (n : ShiftAmount) :
    shiftRight ⟨hi, lo⟩ n =
      ⟨if n.toNat = 0 then hi else asr32 hi n.toNat,
        if n.toNat = 0 then lo else shl32 hi (32 - n.toNat) ||| lsr32 lo n.toNat⟩ := by
  by_cases h : n = 0#5
  · rw [h, shiftRight_zero]
    rfl
  · have h0 : n.toNat ≠ 0 := Nat.ne_of_gt (amount_bounds h).1
    rw [shiftRight, if_neg h, if_neg h0, if_neg h0, borrowTerm]

/-! ## The borrow term (R54) -/

/-- The borrow lies above the places that the shifted low half fills. -/
theorem borrowTerm_and_lsr32 (hi lo : Word) (n : ShiftAmount) : borrowTerm hi n &&& lsr32 lo n.toNat = 0#32 := by
  apply BitVec.eq_of_getLsbD_eq
  intro j hj
  rw [BitVec.getLsbD_and, borrowTerm, getLsbD_shl32 _ _ hj, getLsbD_lsr32, BitVec.getLsbD_zero]
  by_cases h : j + n.toNat < 32
  · rw [decide_eq_false (show ¬32 - n.toNat ≤ j by omega), Bool.false_and, Bool.false_and]
  · rw [decide_eq_false h, Bool.false_and, Bool.and_false]

/-- On the bit pattern the sign does not matter: a left shift is the product modulo `2^32` for `signed(v)` too. -/
theorem toNat_shl32_eq_toInt_emod (v : Word) (k : Nat) :
    ((shl32 v k).toNat : Int) = v.toInt * 2 ^ k % 2 ^ 32 := by
  have hsign : (v.toNat : Int) ≡ v.toInt [ZMOD 2 ^ 32] := by
    rw [BitVec.toInt_eq_toNat_bmod]
    exact Int.bmod_emod.symm
  rw [toNat_shl32]
  push_cast
  exact hsign.mul_right _

theorem int_two_pow_sub_mul_two_pow (n : ShiftAmount) : (2 : Int) ^ (32 - n.toNat) * 2 ^ n.toNat = 2 ^ 32 :=
  pow_sub_mul_pow 2 n.isLt.le

/-- No bit of `hi` is lost: what its shift drops is the borrow. -/
theorem asr32_mul_add_borrowTerm (hi : Word) (n : ShiftAmount) :
    (asr32 hi n.toNat).toInt * 2 ^ 32 + (borrowTerm hi n).toNat = hi.toInt * 2 ^ (32 - n.toNat) := by
  have hdiv : (asr32 hi n.toNat).toInt = hi.toInt * 2 ^ (32 - n.toNat) / 2 ^ 32 := by
    rw [toInt_asr32, ← int_two_pow_sub_mul_two_pow n, mul_comm hi.toInt, Int.mul_ediv_mul_of_pos _ _ (by positivity)]
  rw [hdiv, borrowTerm, toNat_shl32_eq_toInt_emod, Int.ediv_mul_add_emod]

/-! ## The new halves bit by bit (R55, R56) -/

theorem getLsbD_shiftRight_hi (p : HalfPair) (n : ShiftAmount) {j : Nat} (hj : j < 32) :
    (shiftRight p n).hi.getLsbD j = if j + n.toNat < 32 then p.hi.getLsbD (j + n.toNat) else p.hi.getLsbD 31 := by
  by_cases h0 : n = 0#5
  · rw [h0, shiftRight_zero]
    exact (if_pos hj).symm
  · rw [shiftRight, if_neg h0, getLsbD_asr32 _ _ hj]

theorem getLsbD_shiftRight_lo (p : HalfPair) (n : ShiftAmount) {j : Nat} (hj : j < 32) :
    (shiftRight p n).lo.getLsbD j =
      if j < 32 - n.toNat then p.lo.getLsbD (j + n.toNat) else p.hi.getLsbD (j - (32 - n.toNat)) := by
  by_cases h0 : n = 0#5
  · rw [h0, shiftRight_zero]
    exact (if_pos hj).symm
  · rw [shiftRight, if_neg h0, BitVec.getLsbD_or, borrowTerm, getLsbD_shl32 _ _ hj, getLsbD_lsr32]
    by_cases h : j < 32 - n.toNat
    · simp [h, Nat.not_le.mpr h, show j + n.toNat < 32 by omega]
    · simp [h, Nat.not_lt.mp h, show ¬j + n.toNat < 32 by omega]

/-! ## The wide right shift (R58) -/

/-- The sum is without a carry, since the terms share no bit. -/
theorem toNat_borrowTerm_or_lsr32 (hi lo : Word) (n : ShiftAmount) :
    (borrowTerm hi n ||| lsr32 lo n.toNat).toNat = (borrowTerm hi n).toNat + lo.toNat / 2 ^ n.toNat := by
  have hdisj := borrowTerm_and_lsr32 hi lo n
  rw [← BitVec.add_eq_or_of_and_eq_zero _ _ hdisj, BitVec.toNat_add_of_and_eq_zero hdisj, toNat_lsr32]

/-- `2^n` divides `2^32`, so the high half passes through the division whole. -/
theorem val_ediv_two_pow (p : HalfPair) (n : ShiftAmount) :
    val p / (2 : Int) ^ n.toNat = p.hi.toInt * 2 ^ (32 - n.toNat) + p.lo.toNat / (2 : Int) ^ n.toNat := by
  rw [val, ← int_two_pow_sub_mul_two_pow n, ← mul_assoc, add_comm, Int.add_mul_ediv_right _ _ (by positivity),
    add_comm]

theorem val_shiftRight (p : HalfPair) (n : ShiftAmount) : val (shiftRight p n) = val p / (2 : Int) ^ n.toNat := by
  by_cases h : n = 0#5
  · rw [h, shiftRight_zero]
    exact (Int.ediv_one _).symm
  · have hlo := toNat_borrowTerm_or_lsr32 p.hi p.lo n
    rw [shiftRight, if_neg h, val, hlo, val_ediv_two_pow, ← asr32_mul_add_borrowTerm]
    push_cast
    exact (add_assoc _ _ _).symm

theorem recompose_shiftRight (p : HalfPair) (n : ShiftAmount) :
    recompose (shiftRight p n) = (recompose p).sshiftRight n.toNat := by
  apply BitVec.eq_of_toInt_eq
  rw [recompose_toInt, val_shiftRight, BitVec.toInt_sshiftRight, recompose_toInt, Int.shiftRight_eq_div_pow,
    Nat.cast_pow, Nat.cast_ofNat]

/-! ## The sign, the fixed points and the amount 31 (R52) -/

theorem signBit_shiftRight (p : HalfPair) (n : ShiftAmount) : signBit (shiftRight p n) = signBit p := by
  rw [signBit, signBit, getLsbD_shiftRight_hi p n (by decide)]
  by_cases h : 31 + n.toNat < 32
  · rw [if_pos h, show n.toNat = 0 by omega]
  · rw [if_neg h]

theorem val_injective : Function.Injective val := by
  intro p q h
  rw [← recompose_toInt, ← recompose_toInt] at h
  rw [← decompose_recompose p, BitVec.eq_of_toInt_eq h, decompose_recompose]

/-- The floor keeps -1, since it rounds toward minus infinity. -/
theorem shiftRight_neg_one (n : ShiftAmount) :
    shiftRight ⟨0xFFFFFFFF#32, 0xFFFFFFFF#32⟩ n = ⟨0xFFFFFFFF#32, 0xFFFFFFFF#32⟩ := by
  have hval : val ⟨0xFFFFFFFF#32, 0xFFFFFFFF#32⟩ = -1 := rfl
  apply val_injective
  rw [val_shiftRight, hval, Int.neg_one_ediv, Int.sign_eq_one_of_pos (by positivity)]

theorem shiftRight_zero_pair (n : ShiftAmount) : shiftRight ⟨0#32, 0#32⟩ n = ⟨0#32, 0#32⟩ := by
  have hval : val ⟨0#32, 0#32⟩ = 0 := rfl
  apply val_injective
  rw [val_shiftRight, hval, Int.zero_ediv]

/-- Only the sign is left of a half shifted by 31. -/
theorem asr32_thirtyOne (v : Word) : asr32 v 31 = if v.toInt < 0 then 0xFFFFFFFF#32 else 0x00000000#32 := by
  have hmin : -(2 ^ 31) ≤ v.toInt := BitVec.le_toInt v
  have hmax : v.toInt < 2 ^ 31 := BitVec.toInt_lt
  apply BitVec.eq_of_toInt_eq
  rw [toInt_asr32]
  by_cases h : v.toInt < 0
  · rw [if_pos h, Int.ediv_eq_neg_one_of_neg_of_le h (neg_le.mp hmin)]
    rfl
  · rw [if_neg h, Int.ediv_eq_zero_of_lt (not_lt.mp h) hmax]
    rfl

theorem shiftRight_thirtyOne (hi lo : Word) :
    shiftRight ⟨hi, lo⟩ 31#5 = ⟨if hi.toInt < 0 then 0xFFFFFFFF#32 else 0x00000000#32,
      hi.extractLsb' 0 31 ++ lo.extractLsb' 31 1⟩ := by
  have hhi : (shiftRight ⟨hi, lo⟩ 31#5).hi = if hi.toInt < 0 then 0xFFFFFFFF#32 else 0x00000000#32 :=
    asr32_thirtyOne hi
  have hlo : (shiftRight ⟨hi, lo⟩ 31#5).lo = hi.extractLsb' 0 31 ++ lo.extractLsb' 31 1 := by
    apply BitVec.eq_of_getLsbD_eq
    intro j hj
    rw [getLsbD_shiftRight_lo _ _ hj, BitVec.getLsbD_append]
    by_cases h : j = 0
    · simp [h]
    · have hin : ¬j < 1 ∧ j - 1 < 31 := by omega
      simp [hin]
  rw [← hhi, ← hlo]

/-! ## The magnitude (R59) -/

/-- A floor keeps the magnitude exactly where the division of naturals keeps the number: that of `v` itself where `v` is
not negative, and that of `-v - 1` where it is. -/
theorem natAbs_ediv_eq_natAbs_iff (v : Int) {d : Nat} (hd : 0 < d) :
    (v / (d : Int)).natAbs = v.natAbs ↔ d = 1 ∨ v = 0 ∨ v = -1 := by
  obtain ⟨k, rfl⟩ := Nat.exists_eq_add_one_of_ne_zero hd.ne'
  cases v with
  | ofNat m =>
    rw [Int.ofNat_eq_natCast, ← Int.natCast_ediv, Int.natAbs_natCast, Int.natAbs_natCast, Nat.div_eq_self]
    omega
  | negSucc m =>
    rw [Int.negSucc_ediv_ofNat_succ, Int.natAbs_negSucc, Int.natAbs_negSucc, Nat.succ_inj, Nat.div_eq_self]
    omega

theorem two_pow_toNat_eq_one_iff (n : ShiftAmount) : 2 ^ n.toNat = 1 ↔ n = 0#5 := by
  rw [Nat.pow_eq_one, BitVec.toNat_eq]
  exact or_iff_right (by decide)

/-! ## The settled statements -/

/-- Settles O18: the borrow's bits, the halves' bits, and the sum as an OR of terms that share no bit. -/
theorem rshiftHalvesAreConcatenations : Obligations.RshiftHalvesAreConcatenations := by
  intro hi lo n hn
  have hne : n ≠ 0#5 := by rintro rfl; exact absurd hn (by decide)
  have hpair : shiftRight ⟨hi, lo⟩ n = ⟨asr32 hi n.toNat, borrowTerm hi n ||| lsr32 lo n.toNat⟩ := if_neg hne
  have hdisj := borrowTerm_and_lsr32 hi lo n
  have hhi := congrArg HalfPair.hi hpair
  have hlo := congrArg HalfPair.lo hpair
  refine ⟨rfl, fun _ hj => getLsbD_shl32 hi _ hj, hlo, ?_, hdisj, fun _ hj => getLsbD_shiftRight_lo _ n hj, hhi,
    fun _ hj => getLsbD_shiftRight_hi _ n hj, ?_, ?_⟩
  · rw [hlo, BitVec.add_eq_or_of_and_eq_zero _ _ hdisj]
  · rw [hhi, toInt_asr32]
  · rw [hhi, asr32_mul_add_borrowTerm]

/-- Settles O19: the pair on the outputs is the operand's right shift, which recomposes to the wide one. -/
theorem rshiftIsTheWideArithmeticShift : Obligations.RshiftIsTheWideArithmeticShift := by
  intro n s p hp
  exact ⟨_, _, exec_rshift n hp, result_after_rshift n hp, recompose_shiftRight p n, val_shiftRight p n⟩

/-- Settles O20: the shift is a floor division, by 1 only for the amount 0. -/
theorem rightShiftNeverGrowsTheMagnitude : Obligations.RightShiftNeverGrowsTheMagnitude := by
  intro p n
  have hcast : (2 : Int) ^ n.toNat = ((2 ^ n.toNat : Nat) : Int) := (Nat.cast_pow 2 n.toNat).symm
  rw [val_shiftRight, hcast, natAbs_ediv_eq_natAbs_iff _ (Nat.two_pow_pos _), two_pow_toNat_eq_one_iff]
  exact ⟨Int.natAbs_ediv_le_natAbs _ _, Iff.rfl⟩

/-- Settles O16: the pair of the pseudocode is what the host takes and what the outputs show. -/
theorem rshiftCompletesWithItsPair : Obligations.RshiftCompletesWithItsPair := by
  intro n s hi lo hhi hlo
  have hp := State.operand_of_inputs hhi hlo
  have hres := result_after_rshift n hp
  refine ⟨_, _, _, exec_rshift n hp, rfl, rfl, ?_, ?_, ?_⟩
  · rw [State.hiOut_of_result hres, shiftRight_eq_ite]
  · rw [State.loOut_of_result hres, shiftRight_eq_ite]
  · rw [driveWord_encode_rshift, shiftRight_eq_ite, State.holdPair]

/-- Settles O17: the pair that the amount 31 gives, the kept sign bit, and the two values that the floor keeps. -/
theorem rshiftCornerCases : Obligations.RshiftCornerCases := by
  refine ⟨fun s hi lo hhi hlo => ?_, signBit_shiftRight, shiftRight_neg_one, shiftRight_zero_pair⟩
  have hp := State.operand_of_inputs hhi hlo
  have hres := result_after_rshift 31#5 hp
  refine ⟨_, exec_rshift 31#5 hp, ?_, ?_⟩
  · rw [State.hiOut_of_result hres, shiftRight_thirtyOne]
  · rw [State.loOut_of_result hres, shiftRight_thirtyOne]

end Sys2Proof.Machine
end

section
/-! Proof of the statements on `max_left_shift` (43_properties.md R62, R63). The model's count of leading zeros is the
library's `BitVec.clz`, so it is bounded below by how small the number is; that gives the largest amount whose product
fits. -/

namespace Sys2Proof.Machine

/-! ## The count of leading zeros -/

/-- The library counts from bit `k` down and adds the bits above it, which it takes to be zero. -/
theorem toNat_clzAuxRec (x : DWord) {k : Nat} (hk : k < 64) :
    (x.clzAuxRec k).toNat = 63 - k + leadingZerosBelow (k + 1) x := by
  induction k with
  | zero =>
    rw [BitVec.clzAuxRec_zero, leadingZerosBelow, leadingZerosBelow]
    split <;> rfl
  | succ k ih =>
    have hrec := ih (by omega)
    rw [BitVec.clzAuxRec_succ, leadingZerosBelow]
    split
    · rw [BitVec.toNat_ofNat]; omega
    · omega

theorem toNat_clz (x : DWord) : x.clz.toNat = clz64 x := by
  rw [BitVec.clz, toNat_clzAuxRec x (by decide), Nat.sub_self, Nat.zero_add, clz64]

theorem clz64_le_of_ne_zero {x : DWord} (h : x ≠ 0#64) : clz64 x ≤ 63 := by
  have hlt : x.clz.toNat < 64 := BitVec.lt_def.mp (BitVec.clz_lt_iff_ne_zero.mpr h)
  rw [toNat_clz] at hlt
  exact Nat.le_of_lt_succ hlt

theorem toNat_lt_two_pow_sub_clz64 (x : DWord) : x.toNat < 2 ^ (64 - clz64 x) := by
  rw [← toNat_clz]
  exact BitVec.toNat_lt_two_pow_sub_clz

/-- A vector has `m` leading zeros exactly when it is below `2^(64-m)` as a number. -/
theorem le_clz64_iff (x : DWord) {m : Nat} (hm : m ≤ 64) : m ≤ clz64 x ↔ x.toNat < 2 ^ (64 - m) := by
  constructor
  · intro h
    exact (toNat_lt_two_pow_sub_clz64 x).trans_le (Nat.pow_le_pow_right (by decide) (by omega))
  · intro h
    by_contra hlt
    have hne : x ≠ 0#64 := by rintro rfl; exact hlt hm
    have htop := BitVec.two_pow_sub_clz_le_toNat_of_ne_zero (by decide) hne
    rw [toNat_clz] at htop
    have hpow : 2 ^ (64 - m) ≤ 2 ^ (64 - 1 - clz64 x) := Nat.pow_le_pow_right (by decide) (by omega)
    omega

/-- Above the most significant one bit there are only zeros. -/
theorem getLsbD_of_sub_clz64_lt {x : DWord} {j : Nat} (h : 63 - clz64 x < j) : x.getLsbD j = false := by
  have hpow : 2 ^ (64 - clz64 x) ≤ 2 ^ j := Nat.pow_le_pow_right (by decide) (by omega)
  rw [← BitVec.testBit_toNat]
  exact Nat.testBit_lt_two_pow ((toNat_lt_two_pow_sub_clz64 x).trans_le hpow)

theorem getLsbD_sub_clz64 {x : DWord} (h : x ≠ 0#64) : x.getLsbD (63 - clz64 x) = true := by
  rw [← toNat_clz]
  exact BitVec.getLsbD_true_clz_of_ne_zero (by decide) h

/-! ## The largest amount that does not overflow -/

/-- For a non-negative value the sign bit is one of the leading zeros; the others are the room for the product. -/
theorem le_clz64_sub_one_iff {x : DWord} (hx : 0 ≤ x.toInt) {n : Nat} (hn : n ≤ 31) :
    n ≤ clz64 x - 1 ↔ x.toInt * 2 ^ n ≤ 2 ^ 63 - 1 := by
  have hlt : 2 * x.toNat < 2 ^ 64 := BitVec.toInt_pos_iff.mp hx
  have hpos : 1 ≤ clz64 x := (le_clz64_iff x (by decide)).mpr (by omega)
  have hprod : x.toNat < 2 ^ (64 - (n + 1)) ↔ x.toNat * 2 ^ n < 2 ^ 63 := by
    rw [← pow_sub_mul_pow 2 (by omega : n ≤ 63), Nat.mul_lt_mul_right (Nat.two_pow_pos n), Nat.add_comm n 1,
      ← Nat.sub_sub]
  calc n ≤ clz64 x - 1 ↔ n + 1 ≤ clz64 x := Nat.le_sub_iff_add_le hpos
    _ ↔ x.toNat * 2 ^ n < 2 ^ 63 := (le_clz64_iff x (by omega)).trans hprod
    _ ↔ x.toInt * 2 ^ n ≤ 2 ^ 63 - 1 := by
      rw [BitVec.toInt_eq_toNat_of_lt hlt, Int.le_sub_one_iff]
      exact_mod_cast Iff.rfl

/-- The formula's case for 0 is no exception: a vector of zeros has room for every amount. -/
theorem maxLeftShift_eq_min (x : DWord) : maxLeftShift x = min 31 (clz64 x - 1) := by
  by_cases h : x = 0
  · rw [h]; rfl
  · exact if_neg h

theorem le_maxLeftShift_iff {x : DWord} (hx : 0 ≤ x.toInt) {n : Nat} (hn : n ≤ 31) :
    n ≤ maxLeftShift x ↔ x.toInt * 2 ^ n ≤ 2 ^ 63 - 1 := by
  rw [maxLeftShift_eq_min, le_min_iff, and_iff_right hn, le_clz64_sub_one_iff hx hn]

theorem toNat_amount_le (n : ShiftAmount) : n.toNat ≤ 31 := Nat.le_of_lt_succ n.isLt

/-! ## The settled statements -/

/-- Settles O24: the formula is the bound on the product, the count is the library's, and the table is evaluated. -/
theorem maxLeftShiftIsTheLargestAmount : Obligations.MaxLeftShiftIsTheLargestAmount := by
  refine ⟨fun x hx => ⟨?_, fun n => le_maxLeftShift_iff hx, ?_, fun _ => maxLeftShift_eq_min x⟩,
    fun x hx => ⟨clz64_le_of_ne_zero hx, getLsbD_sub_clz64 hx, fun j => getLsbD_of_sub_clz64_lt⟩,
    rfl, rfl, rfl, rfl, rfl, rfl, rfl, rfl, rfl, rfl, rfl⟩
  · rw [maxLeftShift_eq_min]
    exact min_le_left _ _
  · rintro rfl
    rfl

/-- Settles O23: the bound keeps the product in range, and the shifted pair is the pair of its low 64 bits. -/
theorem leftShiftIsTheProductWithinTheBound : Obligations.LeftShiftIsTheProductWithinTheBound := by
  intro x n hx _ hmax
  refine ⟨(le_maxLeftShift_iff hx (toNat_amount_le n)).mp hmax, ?_⟩
  rw [← val_decompose x, ← recompose_shiftLeft_eq_ofInt, decompose_recompose]

end Sys2Proof.Machine
end

section
/-! Proof of the laws of both shifts (43_properties.md R60, R61, R64 to R69). They are facts about the wide view: a left
shift is the 64-bit logical shift of the recomposed vector, a right shift the floor of the value, and a pair is known by
either (`recompose_injective`, `val_injective`). -/

namespace Sys2Proof.Machine

/-! ## The no-op and the example (R60, R65) -/

/-- Settles O21: the case of the amount 0 in both functions. -/
theorem shiftByZeroIsNoOp : Obligations.ShiftByZeroIsNoOp :=
  ⟨fun _ => ⟨shiftLeft_zero _, shiftRight_zero _⟩, fun p => ⟨shiftLeft_zero p, shiftRight_zero p⟩⟩

/-- Settles O26: the model evaluates the four fixed terms. -/
theorem concreteExampleOfTheSource : Obligations.ConcreteExampleOfTheSource := ⟨rfl, rfl, rfl, rfl⟩

/-! ## The floor division (R61) -/

/-- Settles O22: the pair of the floor is the only pair with that value. -/
theorem rightShiftIsFloorDivision : Obligations.RightShiftIsFloorDivision := by
  intro x n _ _
  rw [← val_decompose x, ← val_shiftRight, ← recompose_toInt, BitVec.ofInt_toInt, decompose_recompose]

/-! ## The zero pair (R64) -/

theorem recompose_injective : Function.Injective recompose :=
  Function.LeftInverse.injective decompose_recompose

theorem shiftLeft_zero_pair (n : ShiftAmount) : shiftLeft ⟨0#32, 0#32⟩ n = ⟨0#32, 0#32⟩ := by
  have hzero : recompose ⟨0#32, 0#32⟩ = 0#64 := rfl
  apply recompose_injective
  rw [recompose_shiftLeft, hzero, BitVec.zero_shiftLeft]

theorem portFunction_zero_pair (d : BitVec 1) (n : ShiftAmount) :
    portFunction d n ⟨0#32, 0#32⟩ = ⟨0#32, 0#32⟩ := by
  rw [portFunction, shiftLeft_zero_pair, shiftRight_zero_pair, ite_self]

/-- Settles O25: whichever function the word selects keeps the zero pair. -/
theorem zeroPairIsFixedByEveryOperation : Obligations.ZeroPairIsFixedByEveryOperation := by
  intro w s hs
  have hres := exec_decode_of_operand w hs
  rwa [portFunction_zero_pair] at hres

/-! ## Shifts of one direction (R66) -/

/-- A run of left shifts is one shift by the sum. -/
theorem recompose_runWords_lshift (ns : List ShiftAmount) (p : HalfPair) :
    recompose (runWords (ns.map fun n => encode (.lshift n)) p) = recompose p <<< (ns.map BitVec.toNat).sum := by
  induction ns generalizing p with
  | nil => exact (BitVec.shiftLeft_zero _).symm
  | cons n ns ih =>
    rw [List.map_cons, runWords, portFunction_encode_lshift, ih, recompose_shiftLeft, List.map_cons, List.sum_cons,
      BitVec.shiftLeft_add]

/-- A run of right shifts is one floor division: floors of floors compose. -/
theorem val_runWords_rshift (ns : List ShiftAmount) (p : HalfPair) :
    val (runWords (ns.map fun n => encode (.rshift n)) p) = val p / (2 : Int) ^ (ns.map BitVec.toNat).sum := by
  induction ns generalizing p with
  | nil => exact (Int.ediv_one _).symm
  | cons n ns ih =>
    rw [List.map_cons, runWords, portFunction_encode_rshift, ih, val_shiftRight, List.map_cons, List.sum_cons,
      pow_add, Int.ediv_ediv_of_nonneg (by positivity)]

/-- From the amount 63 on only the sign of a value is left. -/
theorem val_ediv_two_pow_of_le (p : HalfPair) {k : Nat} (hk : 63 ≤ k) :
    val p / (2 : Int) ^ k = if 0 ≤ val p then 0 else -1 := by
  obtain ⟨hmin, hmax⟩ := val_bounds p
  have hpow : (2 : Int) ^ 63 ≤ 2 ^ k := pow_le_pow_right₀ (by decide) hk
  split
  · next h => exact Int.ediv_eq_zero_of_lt h (by omega)
  · next h => exact Int.ediv_eq_neg_one_of_neg_of_le (not_le.mp h) (by omega)

/-- Settles O27: a run is known by the sum of its amounts, which no permutation changes. Left then right by 1 gives
the pair of value 1 back, and right then left loses it. -/
theorem shiftsOfOneDirectionCompose : Obligations.ShiftsOfOneDirectionCompose := by
  refine ⟨fun ns p => ⟨?product, fun hsum => ?allOut⟩, fun ns p => ⟨val_runWords_rshift ns p, fun hsum => ?signOnly⟩,
    fun ns ms p hperm => ?permuted, ⟨⟨0#32, 1#32⟩, by decide⟩, rfl⟩
  case product => rw [recompose_runWords_lshift, BitVec.toNat_shiftLeft, Nat.shiftLeft_eq]
  case allOut =>
    apply recompose_injective
    rw [recompose_runWords_lshift, BitVec.shiftLeft_eq_zero hsum]
    rfl
  case signOnly => rw [val_runWords_rshift, val_ediv_two_pow_of_le p hsum]
  case permuted =>
    have hsum : (ns.map BitVec.toNat).sum = (ms.map BitVec.toNat).sum := (hperm.map _).sum_eq
    exact ⟨recompose_injective (by rw [recompose_runWords_lshift, recompose_runWords_lshift, hsum]),
      val_injective (by rw [val_runWords_rshift, val_runWords_rshift, hsum])⟩

/-! ## Every bit of the result (R69) -/

theorem getLsbD_recompose_shiftLeft (p : HalfPair) (n : ShiftAmount) {i : Nat} (hi : i < 64) :
    (recompose (shiftLeft p n)).getLsbD i = if n.toNat ≤ i then (recompose p).getLsbD (i - n.toNat) else false := by
  rw [recompose_shiftLeft, BitVec.getLsbD_shiftLeft]
  by_cases h : n.toNat ≤ i
  · simp [hi, h, Nat.not_lt.mpr h]
  · simp [hi, h, Nat.not_le.mp h]

theorem getLsbD_recompose_shiftRight (p : HalfPair) (n : ShiftAmount) {i : Nat} (hi : i < 64) :
    (recompose (shiftRight p n)).getLsbD i =
      if i ≤ 63 - n.toNat then (recompose p).getLsbD (i + n.toNat) else (recompose p).getLsbD 63 := by
  have hn := n.isLt
  have hcond : n.toNat + i < 64 ↔ i ≤ 63 - n.toNat := by omega
  rw [recompose_shiftRight, BitVec.getLsbD_sshiftRight, decide_eq_false (not_le.mpr hi), Bool.not_false,
    Bool.true_and, BitVec.msb_eq_getLsbD_last, Nat.add_comm i]
  exact if_congr hcond rfl rfl

/-- Settles O29: the bits of the wide shifts, and the bits of the halves with the rule's own bounds. -/
theorem everyBitOfTheResult : Obligations.EveryBitOfTheResult := by
  intro p n
  have hn := n.isLt
  refine ⟨fun _ hi => getLsbD_recompose_shiftLeft p n hi, fun _ hi => getLsbD_recompose_shiftRight p n hi,
    fun j hj => ⟨?_, ?_, ?_, ?_⟩⟩
  · rw [getLsbD_shiftLeft_hi p n hj, ← ite_not, Nat.sub_add_comm hn.le]
    exact if_congr Nat.not_lt rfl rfl
  · rw [getLsbD_shiftLeft_lo p n hj]
    by_cases h : n.toNat ≤ j <;> simp [h]
  · rw [getLsbD_shiftRight_lo p n hj, show j - (32 - n.toNat) = j + n.toNat - 32 by omega]
    exact if_congr (by omega) rfl rfl
  · rw [getLsbD_shiftRight_hi p n hj]
    exact if_congr (by omega) rfl rfl

/-! ## Left then right, right then left (R67) -/

/-- Left then right keeps the bits that stay in and copies the topmost of them above. -/
theorem getLsbD_shiftRight_shiftLeft (p : HalfPair) (n : ShiftAmount) {i : Nat} (hi : i < 64) :
    (recompose (shiftRight (shiftLeft p n) n)).getLsbD i =
      if i ≤ 63 - n.toNat then (recompose p).getLsbD i else (recompose p).getLsbD (63 - n.toNat) := by
  have hn := n.isLt
  rw [getLsbD_recompose_shiftRight _ n hi]
  by_cases h : i ≤ 63 - n.toNat
  · rw [if_pos h, if_pos h, getLsbD_recompose_shiftLeft p n (by omega), if_pos (Nat.le_add_left _ _),
      Nat.add_sub_cancel]
  · rw [if_neg h, if_neg h, getLsbD_recompose_shiftLeft p n (by decide), if_pos (by omega)]

theorem recompose_shiftRight_shiftLeft (p : HalfPair) (n : ShiftAmount) :
    recompose (shiftRight (shiftLeft p n) n) = ((recompose p).setWidth (64 - n.toNat)).signExtend 64 := by
  have hn := n.isLt
  apply BitVec.eq_of_getLsbD_eq
  intro i hi
  rw [getLsbD_shiftRight_shiftLeft p n hi, BitVec.getLsbD_signExtend, decide_eq_true hi, Bool.true_and,
    BitVec.msb_eq_getLsbD_last, BitVec.getLsbD_setWidth, BitVec.getLsbD_setWidth]
  by_cases h : i ≤ 63 - n.toNat
  · have hin : i < 64 - n.toNat := by omega
    simp [h, hin]
  · have hout : ¬i < 64 - n.toNat := by omega
    have htop : 64 - n.toNat - 1 = 63 - n.toNat := by omega
    have hlt : 63 - n.toNat < 64 - n.toNat := by omega
    simp [h, hout, htop, hlt]

theorem shiftRight_shiftLeft_eq_self_iff_topBits (p : HalfPair) (n : ShiftAmount) :
    shiftRight (shiftLeft p n) n = p ↔
      ∀ j, j ≤ n.toNat → (recompose p).getLsbD (63 - j) = (recompose p).getLsbD 63 := by
  have hn := n.isLt
  constructor
  · intro h
    have hcopy : ∀ j, j ≤ n.toNat → (recompose p).getLsbD (63 - j) = (recompose p).getLsbD (63 - n.toNat) := by
      intro j hj
      have hbit := getLsbD_shiftRight_shiftLeft p n (i := 63 - j) (by omega)
      rw [h] at hbit
      by_cases hin : 63 - j ≤ 63 - n.toNat
      · rw [show j = n.toNat by omega]
      · rwa [if_neg hin] at hbit
    exact fun j hj => (hcopy j hj).trans (hcopy 0 (Nat.zero_le _)).symm
  · intro htop
    apply recompose_injective
    apply BitVec.eq_of_getLsbD_eq
    intro i hi
    rw [getLsbD_shiftRight_shiftLeft p n hi]
    by_cases h : i ≤ 63 - n.toNat
    · rw [if_pos h]
    · rw [if_neg h, htop _ le_rfl, ← htop (63 - i) (by omega), Nat.sub_sub_self (Nat.le_of_lt_succ hi)]

/-- Back and forth a value comes back through its product; and a value that comes back is the floor of a number in
range, so its product is in range. -/
theorem shiftRight_shiftLeft_eq_self_iff_fits (p : HalfPair) (n : ShiftAmount) :
    shiftRight (shiftLeft p n) n = p ↔
      -(2 ^ 63) ≤ val p * 2 ^ n.toNat ∧ val p * 2 ^ n.toNat ≤ 2 ^ 63 - 1 := by
  have hpos : (0 : Int) < 2 ^ n.toNat := by positivity
  constructor
  · intro h
    obtain ⟨hmin, hmax⟩ := val_bounds (shiftLeft p n)
    have hval : val (shiftLeft p n) / 2 ^ n.toNat = val p := by rw [← val_shiftRight, h]
    have hsplit : (2 : Int) ^ (63 - n.toNat) * 2 ^ n.toNat = 2 ^ 63 := pow_sub_mul_pow 2 (by have := n.isLt; omega)
    have hfloor : -(2 : Int) ^ (63 - n.toNat) ≤ val p := by
      rw [← hval, Int.le_ediv_iff_mul_le hpos, neg_mul, hsplit]
      exact hmin
    constructor
    · rw [← hsplit, ← neg_mul]
      exact Int.mul_le_mul_of_nonneg_right hfloor hpos.le
    · rw [← hval]
      exact (Int.ediv_mul_le _ hpos.ne').trans hmax
  · rintro ⟨hmin, hmax⟩
    apply val_injective
    rw [val_shiftRight, val_shiftLeft_of_fits hmin hmax, Int.mul_ediv_cancel _ hpos.ne']

/-- A product of a non-negative value can only be too large. -/
theorem shiftRight_shiftLeft_eq_self_iff_of_nonneg {p : HalfPair} (hp : 0 ≤ val p) (n : ShiftAmount) :
    shiftRight (shiftLeft p n) n = p ↔ val p * 2 ^ n.toNat ≤ 2 ^ 63 - 1 := by
  have hprod : 0 ≤ val p * 2 ^ n.toNat := by positivity
  rw [shiftRight_shiftLeft_eq_self_iff_fits]
  exact and_iff_right (le_trans (by decide) hprod)

theorem getLsbD_shiftLeft_shiftRight (p : HalfPair) (n : ShiftAmount) {j : Nat} (hj : j < 64) :
    (recompose (shiftLeft (shiftRight p n) n)).getLsbD j = (decide (n.toNat ≤ j) && (recompose p).getLsbD j) := by
  rw [getLsbD_recompose_shiftLeft _ n hj]
  by_cases h : n.toNat ≤ j
  · rw [if_pos h, getLsbD_recompose_shiftRight p n (by omega), if_pos (by omega), Nat.sub_add_cancel h,
      decide_eq_true h, Bool.true_and]
  · rw [if_neg h, decide_eq_false h, Bool.false_and]

/-- Settles O28: the top bits, the range of the product and, for a non-negative value, the leading zeros say the same;
right then left is read bit by bit. -/
theorem leftThenRightAndRightThenLeft : Obligations.LeftThenRightAndRightThenLeft := by
  refine ⟨fun p n => ⟨shiftRight_shiftLeft_eq_self_iff_topBits p n, shiftRight_shiftLeft_eq_self_iff_fits p n,
    recompose_shiftRight_shiftLeft p n, fun _ hj => getLsbD_shiftLeft_shiftRight p n hj⟩, fun x n hx => ?_, rfl, rfl⟩
  have hback := shiftRight_shiftLeft_eq_self_iff_of_nonneg (p := decompose x) (by rwa [val_decompose]) n
  rw [val_decompose] at hback
  rw [hback, le_clz64_sub_one_iff hx (toNat_amount_le n)]
  exact ⟨Iff.rfl, (le_maxLeftShift_iff hx (toNat_amount_le n)).mp⟩

/-! ## The result depends on the inputs alone (R68) -/

theorem State.opWord_congr {s t : State} (hd : s.dir = t.dir) (hn : s.n = t.n) : s.opWord = t.opWord := by
  rw [State.opWord, State.opWord, hd, hn]

theorem State.operand_congr {s t : State} (hhi : s.hiIn = t.hiIn) (hlo : s.loIn = t.loIn) :
    s.operand = t.operand := by
  rw [State.operand, State.operand, hhi, hlo]

theorem State.result_congr {s t : State} (hd : s.dir = t.dir) (hn : s.n = t.n) (hhi : s.hiIn = t.hiIn)
    (hlo : s.loIn = t.loIn) : s.result = t.result := by
  rw [State.result, State.result, hd, hn, State.operand_congr hhi hlo]

/-- Settles O35: a step reads only the word and the operand that it presents, for its answer and for its fault; the
carried pair it leaves is no input, so the outputs are those of the presented inputs. -/
theorem resultDependsOnTheInputsAlone : Obligations.ResultDependsOnTheInputsAlone := by
  intro s t hd hn hhi hlo
  have hword := State.opWord_congr hd hn
  have hoperand := State.operand_congr hhi hlo
  have hres := State.result_congr hd hn hhi hlo
  refine ⟨fun s' hs => ?_, fun r hr => ?_⟩
  · obtain ⟨w, p, hw, hp, rfl⟩ := step_eq_next.mp hs
    rw [hword] at hw
    rw [hoperand] at hp
    exact ⟨_, step_eq_next.mpr ⟨w, p, hw, hp, rfl⟩, congrArg (Option.map HalfPair.hi) hres,
      congrArg (Option.map HalfPair.lo) hres, rfl⟩
  · rw [step_eq_fault] at hr ⊢
    rwa [hword, hoperand] at hr

end Sys2Proof.Machine
end

section
/-! Proof of the statements on a step's stops (60_exceptions.md R81, R82, R88; 70_reset_and_hazards.md R94, R95). Readiness
is that the host presents a word and an operand, which is exactly when a step answers; a step leaves both on the ports and
a pair with the host, so whatever the host presents next has its inputs too. -/

namespace Sys2Proof.Machine

/-! ## What readiness says -/

theorem ready_iff {s : State} :
    Ready s = true ↔ ∃ w p, s.present.opWord = some w ∧ s.present.operand = some p := by
  rw [Ready, Bool.and_eq_true, Option.isSome_iff_exists, Option.isSome_iff_exists, exists_and_exists_comm]

theorem ready_eq_false_iff {s : State} :
    Ready s = false ↔ s.present.opWord = none ∨ s.present.operand = none := by
  rw [Ready, Bool.and_eq_false_iff, Option.isSome_eq_false_iff, Option.isSome_eq_false_iff, Option.isNone_iff_eq_none,
    Option.isNone_iff_eq_none]

/-- With both inputs on the ports and a pair to carry, the host lacks nothing: a word still to come is presented with the
pair, and with no word left the inputs stand as they are. -/
theorem ready_of_inputs_and_pair {s : State} {w : OpWord} {p q : HalfPair} (hw : s.opWord = some w)
    (hp : s.operand = some p) (hq : s.pair = some q) : Ready s = true := by
  rw [ready_iff]
  cases hprog : s.program with
  | nil => exact ⟨w, p, by rwa [State.present_nil hprog], by rwa [State.present_nil hprog]⟩
  | cons v vs =>
    rw [State.present_cons_some hprog hq]
    exact ⟨v, q, State.opWord_driveWord (s.setProgram vs) v, State.operand_driveOperand _ q⟩

/-! ## A step -/

theorem step_ne_refused (s : State) (r : Refusal) : step s ≠ .refused r := by
  rcases operationCycle_cases exec s with ⟨-, h⟩ | ⟨w, -, h⟩
  · rw [step, h]; exact nofun
  · rw [step, h]; exact exec_ne_refused (decode w) s.present r

/-- A step answers a next state exactly on a ready machine (R95). -/
theorem ready_iff_exists_step {s : State} : Ready s = true ↔ ∃ t, step s = .next t := by
  rw [ready_iff]
  constructor
  · rintro ⟨w, p, hw, hp⟩
    exact ⟨_, step_eq_next.mpr ⟨w, p, hw, hp, rfl⟩⟩
  · rintro ⟨t, ht⟩
    obtain ⟨w, p, hw, hp, -⟩ := step_eq_next.mp ht
    exact ⟨w, p, hw, hp⟩

theorem ready_of_step {s t : State} (h : step s = .next t) : Ready t = true := by
  obtain ⟨w, p, hw, hp, rfl⟩ := step_eq_next.mp h
  exact ready_of_inputs_and_pair hw hp (State.holdPair_pair ..)

/-! ## Runs of any length -/

theorem safeFor_succ_of_step {s t : State} {k : Nat} (h : step s = .next t) (ht : SafeFor k t) :
    SafeFor (k + 1) s := by
  rwa [SafeFor, core_run_of_next k h]

theorem safeFor_of_ready (k : Nat) : ∀ s : State, Ready s = true → SafeFor k s := by
  induction k with
  | zero => exact fun s _ => ⟨s, core_run_zero s⟩
  | succ k ih =>
    intro s hs
    obtain ⟨t, ht⟩ := ready_iff_exists_step.mp hs
    exact safeFor_succ_of_step ht (ih t (ready_of_step ht))

/-! ## The settled statements -/

/-- Settles O43: readiness is an invariant of the step, so a run of any length is safe by induction on its length. -/
theorem readyMachineNeverStops : Obligations.ReadyMachineNeverStops := by
  refine ⟨fun s hs => ?_, safeFor_of_ready⟩
  obtain ⟨t, ht⟩ := ready_iff_exists_step.mp hs
  exact ⟨t, ht, ready_of_step ht⟩

/-- Settles O37: a step's one fault is the undriven input, raised exactly when the machine is not ready. -/
theorem onlyAnUndrivenInputStopsAStep : Obligations.OnlyAnUndrivenInputStopsAStep := by
  refine ⟨fun s => ready_iff_exists_step.mp, fun s hs => step_eq_fault.mpr ⟨ready_eq_false_iff.mp hs, rfl⟩,
    step_ne_refused, fun s n h => ?_⟩
  obtain ⟨-, hfault⟩ := step_eq_fault.mp h
  cases hfault

end Sys2Proof.Machine
end

section
/-! Proof of the statements on the amount of a function-level call (60_exceptions.md R80, R84). The amount is tested
first: in range the call is the instruction's function, out of range it is the violation, which knows only the policy. -/

namespace Sys2Proof.Machine

/-! ## A call on either side of the range -/

theorem amountInRange_eq_false_iff {n : Int} : amountInRange n = false ↔ n < 0 ∨ 31 < n := by
  rw [← Bool.not_eq_true, amountInRange_iff]
  omega

theorem shiftLeftCall_of_inRange (policy : OorPolicy) (p : HalfPair) {n : Int} (s : State)
    (h : amountInRange n = true) : shiftLeftCall policy p n s = .next (shiftLeft p (BitVec.ofInt 5 n), s) :=
  if_pos h

theorem shiftRightCall_of_inRange (policy : OorPolicy) (p : HalfPair) {n : Int} (s : State)
    (h : amountInRange n = true) : shiftRightCall policy p n s = .next (shiftRight p (BitVec.ofInt 5 n), s) :=
  if_pos h

theorem shiftLeftCall_of_outOfRange (policy : OorPolicy) (p : HalfPair) {n : Int} (s : State)
    (h : amountInRange n = false) : shiftLeftCall policy p n s = amountViolation policy n s :=
  if_neg (ne_true_of_eq_false h)

theorem shiftRightCall_of_outOfRange (policy : OorPolicy) (p : HalfPair) {n : Int} (s : State)
    (h : amountInRange n = false) : shiftRightCall policy p n s = amountViolation policy n s :=
  if_neg (ne_true_of_eq_false h)

/-! ## The violation under each policy (R80) -/

theorem amountViolation_fault (n : Int) (s : State) :
    amountViolation .fault n s = .fault (.amountOutOfRange n) := rfl

theorem amountViolation_anyValue (n : Int) (s : State) :
    amountViolation .anyValue n s = .next (Config.freePair s.draws, s.countDraw) := rfl

/-! ## A call with a port's amount (R6, R84) -/

theorem ofInt_toNat_amount (n : ShiftAmount) : BitVec.ofInt 5 n.toNat = n := by
  rw [BitVec.ofInt_natCast, BitVec.ofNat_toNat, BitVec.setWidth_eq]

theorem shiftLeftCall_toNat (policy : OorPolicy) (p : HalfPair) (n : ShiftAmount) (s : State) :
    shiftLeftCall policy p n.toNat s = .next (shiftLeft p n, s) := by
  rw [shiftLeftCall_of_inRange policy p s (amountInRange_toNat n), ofInt_toNat_amount]

theorem shiftRightCall_toNat (policy : OorPolicy) (p : HalfPair) (n : ShiftAmount) (s : State) :
    shiftRightCall policy p n.toNat s = .next (shiftRight p n, s) := by
  rw [shiftRightCall_of_inRange policy p s (amountInRange_toNat n), ofInt_toNat_amount]

theorem portFunction_left (n : ShiftAmount) (p : HalfPair) : portFunction 0#1 n p = shiftLeft p n := if_pos rfl

theorem portFunction_right (n : ShiftAmount) (p : HalfPair) : portFunction 1#1 n p = shiftRight p n :=
  if_neg (by decide)

/-! ## The settled statements -/

/-- Settles O46: out of range both calls are the violation, whose two settings are R80's fault and the free draw. -/
theorem amountOutOfRangeFollowsThePolicy : Obligations.AmountOutOfRangeFollowsThePolicy := by
  intro p a s h
  have left := fun policy => shiftLeftCall_of_outOfRange policy p s (amountInRange_eq_false_iff.mpr h)
  have right := fun policy => shiftRightCall_of_outOfRange policy p s (amountInRange_eq_false_iff.mpr h)
  exact ⟨(left .fault).trans (amountViolation_fault a s), (right .fault).trans (amountViolation_fault a s),
    (left .anyValue).trans (amountViolation_anyValue a s), (right .anyValue).trans (amountViolation_anyValue a s)⟩

/-- Settles O47: a port's amount is in range, so each call is its function, which is the port function of its `DIR`. -/
theorem amountInRangeIgnoresThePolicy : Obligations.AmountInRangeIgnoresThePolicy := by
  intro policy p n s
  rw [portFunction_left, portFunction_right]
  have left := shiftLeftCall_toNat policy p n s
  have right := shiftRightCall_toNat policy p n s
  exact ⟨left, right, left, right⟩

end Sys2Proof.Machine
end

section
/-! Proof of the statements on the host's loop (70_reset_and_hazards.md R94, R95). What a step answers is what the host
presents, with the new pair beside it; so the loop is read off the cases of what is presented, and a run is an induction
over its steps. -/

namespace Sys2Proof.Machine

/-! ## What the host presents, field by field -/

/-- The word presented leaves the list, and presenting draws nothing. -/
theorem State.present_frame (s : State) : s.present.program = s.program.tail ∧ s.present.draws = s.draws := by
  cases hprog : s.program with
  | nil => rw [State.present_nil hprog]; exact ⟨hprog, rfl⟩
  | cons w ws =>
    cases hpair : s.pair with
    | none => rw [State.present_cons_none hprog hpair]; exact ⟨rfl, rfl⟩
    | some p => rw [State.present_cons_some hprog hpair]; exact ⟨rfl, rfl⟩

/-- A host with no pair to carry drives no operand input, whether it has a word or not (log entries 8 and 9). -/
theorem State.present_operandInputs_of_pair_none {s : State} (h : s.pair = none) :
    s.present.hiIn = s.hiIn ∧ s.present.loIn = s.loIn := by
  cases hprog : s.program with
  | nil => rw [State.present_nil hprog]; exact ⟨rfl, rfl⟩
  | cons w ws => rw [State.present_cons_none hprog h]; exact ⟨rfl, rfl⟩

/-! ## One turn of the loop, and a run of turns (R94) -/

theorem step_of_program_cons {s : State} {w : OpWord} {ws : List OpWord} {p : HalfPair} (hs : s.program = w :: ws)
    (hp : s.pair = some p) :
    step s = .next ((((s.setProgram ws).driveWord w).driveOperand p).holdPair
      (portFunction (opDir w) (opAmount w) p)) := by
  rw [step_eq_next, State.present_cons_some hs hp]
  exact ⟨w, p, State.opWord_driveWord (s.setProgram ws) w, State.operand_driveOperand _ p, rfl⟩

/-- Each step takes the first word off the list and hands the next one the pair it gave. -/
theorem run_of_pair (k : Nat) : ∀ {s : State} {p : HalfPair}, s.pair = some p → k ≤ s.program.length →
    ∃ t, Sys2Proof.core.run k s = .next t ∧ t.program = s.program.drop k ∧
      t.pair = some (runWords (s.program.take k) p) := by
  induction k with
  | zero => exact fun {s p} hp _ => ⟨s, core_run_zero s, rfl, hp⟩
  | succ k ih =>
    intro s p hp hk
    cases hprog : s.program with
    | nil => rw [hprog] at hk; exact absurd hk (Nat.not_succ_le_zero k)
    | cons w ws =>
      rw [hprog] at hk
      rw [core_run_of_next k (step_of_program_cons hprog hp)]
      exact ih (State.holdPair_pair ..) (Nat.le_of_succ_le_succ hk)

/-! ## The settled statements -/

/-- Settles O32: the state after a turn is what the host presented and the new pair, which its four driven inputs put on
the outputs. -/
theorem stepIsOneTurnOfTheHostsLoop : Obligations.StepIsOneTurnOfTheHostsLoop := by
  intro s w ws p hs hp
  have hres := State.result_driveWord (s := (s.setProgram ws).driveOperand p) w (State.operand_driveOperand _ p)
  exact ⟨_, step_of_program_cons hs hp, rfl, State.hiOut_of_result hres, State.loOut_of_result hres⟩

/-- Settles O33: the run of the first `k` words, and of all of them. -/
theorem runOfAnyWordsIsTheHostsLoop : Obligations.RunOfAnyWordsIsTheHostsLoop := by
  rintro _ s p rfl hp
  have hall := run_of_pair s.program.length hp le_rfl
  rw [List.drop_length, List.take_length] at hall
  exact ⟨fun k hk => run_of_pair k hp hk, hall, fun _ => core_run_zero s⟩

/-- Settles O45: a step answers what the host presents with a new pair, so its frame is the frame of presenting. -/
theorem stepLeavesTheRestAlone : Obligations.StepLeavesTheRestAlone := by
  intro s t h
  obtain ⟨w, p, -, -, rfl⟩ := step_eq_next.mp h
  obtain ⟨hprogram, hdraws⟩ := s.present_frame
  refine ⟨hprogram, hdraws, fun hs => ?_, State.present_operandInputs_of_pair_none⟩
  rw [State.present_nil hs]
  exact ⟨rfl, rfl, rfl, rfl⟩

end Sys2Proof.Machine
end

section
/-! Proof of the statement on runs at the function level (70_reset_and_hazards.md R94, 60_exceptions.md R85). A call in
range is the port function of its word, so calls in range at the head of a list are a run of their words, and what follows
them decides how the list ends. -/

namespace Sys2Proof.Machine

/-- The operation word of a call, its amount narrowed to the port's five bits (R31, R81). -/
def callWord (c : Call) : OpWord := opWordOf (bitOfDirection c.direction) (narrowAmount c.amount)

/-! ## One call -/

theorem performCall_of_wellFormed (policy : OorPolicy) {c : Call} (p : HalfPair) (s : State)
    (h : c.wellFormed = true) :
    performCall policy c p s = .next (portFunction (opDir (callWord c)) (opAmount (callWord c)) p, s) := by
  rw [callWord, opDir_opWordOf, opAmount_opWordOf]
  obtain ⟨d, a⟩ := c
  cases d with
  | left => exact shiftLeftCall_of_inRange policy p s h
  | right => exact shiftRightCall_of_inRange policy p s h

theorem performCall_of_not_wellFormed (policy : OorPolicy) {c : Call} (p : HalfPair) (s : State)
    (h : c.wellFormed = false) : performCall policy c p s = amountViolation policy c.amount s := by
  obtain ⟨d, a⟩ := c
  cases d with
  | left => exact shiftLeftCall_of_outOfRange policy p s h
  | right => exact shiftRightCall_of_outOfRange policy p s h

/-! ## A list of calls -/

theorem performCalls_cons_of_next {policy : OorPolicy} {c : Call} {cs : List Call} {p q : HalfPair} {s t : State}
    (h : performCall policy c p s = .next (q, t)) :
    performCalls policy (c :: cs) p s = performCalls policy cs q t := by
  rw [performCalls, h]

theorem performCalls_cons_of_fault {policy : OorPolicy} {c : Call} {cs : List Call} {p : HalfPair} {s : State}
    {r : Fault} (h : performCall policy c p s = .fault r) : performCalls policy (c :: cs) p s = .fault r := by
  rw [performCalls, h]

/-- Calls in range at the head of a list only change the pair the rest starts from. -/
theorem performCalls_append_of_wellFormed (policy : OorPolicy) (cs : List Call) (s : State) :
    ∀ {before : List Call} (p : HalfPair), (∀ b ∈ before, b.wellFormed = true) →
      performCalls policy (before ++ cs) p s = performCalls policy cs (runWords (before.map callWord) p) s := by
  intro before
  induction before with
  | nil => exact fun _ _ => rfl
  | cons b bs ih =>
    intro p h
    obtain ⟨hb, hbs⟩ := List.forall_mem_cons.mp h
    exact (performCalls_cons_of_next (performCall_of_wellFormed policy p s hb)).trans (ih _ hbs)

/-! ## The settled statement -/

/-- Settles O48: a list in range has nothing after its words; else the first call out of range meets the violation. -/
theorem functionLevelRunAgreesWithTheWords : Obligations.FunctionLevelRunAgreesWithTheWords := by
  refine ⟨fun policy cs p s h => ?_, fun before after c p s hbefore hc => ?_⟩
  · have hrun := performCalls_append_of_wellFormed policy [] s p h
    rwa [List.append_nil] at hrun
  · rw [performCalls_append_of_wellFormed .fault (c :: after) s p hbefore]
    exact performCalls_cons_of_fault
      ((performCall_of_not_wellFormed .fault _ s hc).trans (amountViolation_fault c.amount s))

end Sys2Proof.Machine
end

section
/-! Proof of the statements on the host's duties before a shift (70_reset_and_hazards.md R92, R93): the narrowing of an
amount to the port's five bits, and the overflow test, which asks of the high half what R67 asks of the wide view for a
left shift to be undone by the right shift. -/

namespace Sys2Proof.Machine

/-! ## The narrowed amount (R92) -/

theorem toNat_narrowAmount (a : Int) : (narrowAmount a).toNat = (a % 32).toNat := BitVec.toNat_ofInt ..

theorem intCast_toNat_narrowAmount (a : Int) : ((narrowAmount a).toNat : Int) = a % 32 := by
  rw [toNat_narrowAmount]
  exact Int.toNat_of_nonneg (Int.emod_nonneg a (by decide))

/-- Settles O49: both shifts complete with the wide shift by the narrowed amount, which is the remainder; that of 32 is
the amount 0. -/
theorem narrowedAmountShiftsModulo32 : Obligations.NarrowedAmountShiftsModulo32 := by
  refine ⟨intCast_toNat_narrowAmount, fun a => ?inRange, fun a s p hp => ?shifts, fun s p hp => ?thirtyTwo⟩
  case inRange =>
    rw [amountInRange_iff, intCast_toNat_narrowAmount]
    omega
  case shifts =>
    rw [← toNat_narrowAmount]
    exact ⟨_, _, _, _, exec_lshift _ hp, result_after_lshift _ hp, recompose_shiftLeft p _,
      exec_rshift _ hp, result_after_rshift _ hp, recompose_shiftRight p _⟩
  case thirtyTwo =>
    have hzero : narrowAmount 32 = 0#5 := by decide
    rw [hzero]
    exact ⟨_, exec_lshift 0#5 hp, by rw [result_after_lshift 0#5 hp, shiftLeft_zero]⟩

/-! ## The overflow test (R93) -/

theorem topBitsEqual_iff (hi : Word) (n : ShiftAmount) :
    topBitsEqual hi n = true ↔ ∀ j, j ≤ n.toNat → hi.getLsbD (31 - j) = hi.getLsbD 31 := by
  simp only [topBitsEqual, List.all_eq_true, List.mem_range, Nat.lt_succ_iff, beq_iff_eq]

/-- The top bits of the high half are the top bits of the wide view. -/
theorem topBitsEqual_iff_shiftRight_shiftLeft_eq_self (p : HalfPair) (n : ShiftAmount) :
    topBitsEqual p.hi n = true ↔ shiftRight (shiftLeft p n) n = p := by
  rw [topBitsEqual_iff, shiftRight_shiftLeft_eq_self_iff_topBits]
  refine forall₂_congr fun j hj => ?_
  have hindex : 32 + (31 - j) = 63 - j := by have := toNat_amount_le n; omega
  rw [hi_getLsbD_eq_recompose, hi_getLsbD_eq_recompose, hindex]

theorem topBitsEqual_iff_fits (p : HalfPair) (n : ShiftAmount) :
    topBitsEqual p.hi n = true ↔ -(2 ^ 63) ≤ val p * 2 ^ n.toNat ∧ val p * 2 ^ n.toNat ≤ 2 ^ 63 - 1 :=
  (topBitsEqual_iff_shiftRight_shiftLeft_eq_self p n).trans (shiftRight_shiftLeft_eq_self_iff_fits p n)

theorem topBitsEqual_iff_le_maxLeftShift {p : HalfPair} (hp : 0 ≤ val p) (n : ShiftAmount) :
    topBitsEqual p.hi n = true ↔ n.toNat ≤ maxLeftShift (recompose p) := by
  have hx : 0 ≤ (recompose p).toInt := by rwa [recompose_toInt]
  rw [topBitsEqual_iff_shiftRight_shiftLeft_eq_self, shiftRight_shiftLeft_eq_self_iff_of_nonneg hp,
    le_maxLeftShift_iff hx (toNat_amount_le n), recompose_toInt]

/-- Settles O50: the test passes exactly when the left shift loses nothing, which is when the product fits. -/
theorem hostOverflowTestIsExact : Obligations.HostOverflowTestIsExact := by
  intro p n _
  refine ⟨topBitsEqual_iff p.hi n, topBitsEqual_iff_fits p n, fun h => ?_,
    fun hp => topBitsEqual_iff_le_maxLeftShift hp n⟩
  obtain ⟨hmin, hmax⟩ := (topBitsEqual_iff_fits p n).mp h
  exact val_shiftLeft_of_fits hmin hmax

end Sys2Proof.Machine
end
